-- ==== Sys2Proof/Word.lean ====
section
/-! DEFINITION. The widths of the block: a byte, an 11-bit group, a 32-bit hash word (spec/00_scope.md R4, R7). -/

namespace Sys2Proof

/-- A byte of a buffer, of a frame or of the entropy. -/
abbrev Byte := BitVec 8

/-- An 11-bit group, which is also a word index in [0, 2047] (R4, R64). -/
abbrev Group := BitVec 11

/-- A 16-bit word of a frame: a header, a token, an index field (R66, R70, R73). -/
abbrev Word16 := BitVec 16

/-- A 32-bit word of the hash collaborator (R153). -/
abbrev Word32 := BitVec 32

/-- A dictionary word: its lowercase ASCII bytes (R28). -/
abbrev Text := List Byte

end Sys2Proof
end

