-- ==== Sys2Proof/Config.lean ====
section
/-! DEFINITION. The parameters of spec/00_scope.md R4 and R6, and the free values (log 5). -/

namespace Sys2Proof.Config

/-- ENT_LENS, the legal entropy lengths in bytes (R4). -/
def entLens : List Nat := [16, 20, 24, 28, 32]

/-- WORD_COUNTS, the legal mnemonic lengths in words (R4). -/
def wordCounts : List Nat := [12, 15, 18, 21, 24]

/-- PK_MAX_WC, the largest word count a packer may be constructed for (R4, R12). -/
def pkMaxWc : Nat := 24

/-- PK_BUF_BYTES, the size of the packer's byte buffer (R6, R14). -/
def pkBufBytes : Nat := 34

/-- UP_CAP, the largest slice; it is also the largest value of ARG (R6, R68). -/
def upCap : Nat := 2047

/-- Where `finish` puts the buffered bits in the last byte (R6, U1). -/
inductive FinalAlign where
  | high   -- left-aligned, low bits zero
  | low    -- right-aligned, the reading spec/90_conflicts.md C1 rejects
  deriving DecidableEq, Repr

/-- PK_FINAL_ALIGN = HIGH: the value spec/90_conflicts.md C1 takes (log 9). -/
def pkFinalAlign : FinalAlign := .high

/-- FREE VALUE (log 5): what PK.BUF[i] reads as while no command has written it (R30, U18). -/
opaque pkUnwritten : Nat → Byte

/-- FREE VALUE (log 5): what UP.BUF[k] reads as while no command has written it (R30, U18). -/
opaque upUnwritten : Nat → Byte

end Sys2Proof.Config
end

