-- ==== Sys2Proof/Syntax.lean ====
section
/-! DEFINITION. The eight commands of spec/opcode_table.json with their operands (spec/30_encoding.md R67 to R70). -/

namespace Sys2Proof

/-- A token of MN.DECODE: the result of looking one word up (R70). `idx` is ignored when `miss` holds. -/
structure Token where
  miss : Bool
  idx : Group
  deriving DecidableEq, Repr

/-- A legal command. ARG of the commands with a payload is the length of the payload, so it is not written twice. -/
inductive Instr where
  | pkInit (wc : BitVec 11)            -- PK.INIT
  | pkWrite11 (v : Group)              -- PK.WRITE11
  | pkFinish                           -- PK.FINISH
  | pkTake                             -- PK.TAKE
  | upInit (slice : List Byte)         -- UP.INIT
  | upRead11                           -- UP.READ11
  | mnEncode (entropy : List Byte)     -- MN.ENCODE
  | mnDecode (tokens : List Token)     -- MN.DECODE
  deriving DecidableEq, Repr

end Sys2Proof
end

