-- ==== Sys2Proof/WellFormed.lean ====
section
/-! DEFINITION. Which commands the interface can state: lengths and counts fit the 11-bit ARG (spec/30_encoding.md R68). -/

namespace Sys2Proof

/-- R68: "Lengths and counts above 2047 cannot be stated". -/
def Instr.wellFormed : Instr → Bool
  | .pkInit _ => true
  | .pkWrite11 _ => true
  | .pkFinish => true
  | .pkTake => true
  | .upInit slice => slice.length ≤ Config.upCap
  | .upRead11 => true
  | .mnEncode entropy => entropy.length ≤ Config.upCap
  | .mnDecode tokens => tokens.length ≤ Config.upCap

end Sys2Proof
end

