-- ==== Sys2Proof/Decode.lean ====
section
/-! DEFINITION. Command frames: the decoder, total on any bytes, and the encoder (spec/30_encoding.md R66 to R77). -/

namespace Sys2Proof

/-- Why a frame is illegal: the clauses of R75, by name. Every one raises the same fault (log 12). -/
inductive IllegalFrame where
  | tooShort                    -- shorter than two bytes
  | reservedOp (op : BitVec 4)  -- OP is 0x0, 0x7 or 0xA to 0xF
  | zBitSet                     -- Z = 1
  | argNotZero                  -- PK.FINISH, PK.TAKE or UP.READ11 with ARG ≠ 0
  | wrongLength                 -- the frame length differs from R71
  | tokenReserved               -- a token with T[15:12] ≠ 0
  deriving DecidableEq, Repr

/-- A 16-bit field from its two frame bytes, most significant first (R44, R77). -/
def be16 (a b : Byte) : Word16 := a ++ b

/-- A 16-bit field as two frame bytes, most significant first (R44). -/
def be16Bytes (x : Word16) : List Byte := [x.extractLsb' 8 8, x.extractLsb' 0 8]

/-- OP = HDR[15:12] (R66). -/
def opField (h : Word16) : BitVec 4 := h.extractLsb' 12 4

/-- Z = HDR[11] (R66). -/
def zField (h : Word16) : Bool := h.getLsbD 11

/-- ARG = HDR[10:0] (R66). -/
def argField (h : Word16) : BitVec 11 := h.extractLsb' 0 11

/-- The header with Z = 0 (R66). -/
def headerWord (op : BitVec 4) (arg : BitVec 11) : Word16 := op ++ 0#1 ++ arg

/-- A token from its 16-bit word (R70, R77). -/
def tokenOfWord (t : Word16) : Except IllegalFrame Token :=
  if t.extractLsb' 12 4 = 0#4 then .ok ⟨t.getLsbD 11, t.extractLsb' 0 11⟩ else .error .tokenReserved

/-- A token as a 16-bit word with T[15:12] = 0 (R70). -/
def wordOfToken (t : Token) : Word16 := 0#4 ++ BitVec.ofBool t.miss ++ t.idx

/-- The tokens of an MN.DECODE payload, two bytes each (R70). -/
def tokensOfBytes : List Byte → Except IllegalFrame (List Token)
  | [] => .ok []
  | [_] => .error .wrongLength
  | a :: b :: rest =>
    match tokenOfWord (be16 a b) with
    | .error e => .error e
    | .ok t =>
      match tokensOfBytes rest with
      | .error e => .error e
      | .ok ts => .ok (t :: ts)

/-- The payload bytes of a list of tokens (R70). -/
def bytesOfTokens : List Token → List Byte
  | [] => []
  | t :: ts => be16Bytes (wordOfToken t) ++ bytesOfTokens ts

/-- A command of format H: ARG is the operand, no payload (R71). -/
def decodeH (i : Instr) (payload : List Byte) : Except IllegalFrame Instr :=
  if payload.length = 0 then .ok i else .error .wrongLength

/-- A command of format H0: ARG must be 0, no payload (R71, R75). -/
def decodeH0 (i : Instr) (arg : BitVec 11) (payload : List Byte) : Except IllegalFrame Instr :=
  if arg = 0#11 then decodeH i payload else .error .argNotZero

/-- A command of format HB: ARG payload bytes (R71). -/
def decodeHB (mk : List Byte → Instr) (arg : BitVec 11) (payload : List Byte) : Except IllegalFrame Instr :=
  if payload.length = arg.toNat then .ok (mk payload) else .error .wrongLength

/-- A command of format HT: ARG two-byte tokens (R71). -/
def decodeHT (mk : List Token → Instr) (arg : BitVec 11) (payload : List Byte) : Except IllegalFrame Instr :=
  if payload.length = 2 * arg.toNat then
    match tokensOfBytes payload with
    | .error e => .error e
    | .ok ts => .ok (mk ts)
  else .error .wrongLength

/-- The operation codes of R67, each with its frame format; the eight others are reserved (R75). -/
def decodeOp (op : BitVec 4) (arg : BitVec 11) (payload : List Byte) : Except IllegalFrame Instr :=
  match op.toNat with
  | 0x1 => decodeH (.pkInit arg) payload
  | 0x2 => decodeH (.pkWrite11 arg) payload
  | 0x3 => decodeH0 .pkFinish arg payload
  | 0x4 => decodeH0 .pkTake arg payload
  | 0x5 => decodeHB .upInit arg payload
  | 0x6 => decodeH0 .upRead11 arg payload
  | 0x8 => decodeHB .mnEncode arg payload
  | 0x9 => decodeHT .mnDecode arg payload
  | _ => .error (.reservedOp op)

/-- R75: every byte sequence is one of the eight commands with its operands, or illegal. -/
def decode : List Byte → Except IllegalFrame Instr
  | b0 :: b1 :: payload =>
    let h := be16 b0 b1
    if zField h then .error .zBitSet else decodeOp (opField h) (argField h) payload
  | _ => .error .tooShort

/-- A frame from its operation code, ARG and payload (R66). -/
def frameOf (op : BitVec 4) (arg : BitVec 11) (payload : List Byte) : List Byte :=
  be16Bytes (headerWord op arg) ++ payload

/-- The command frame of a well-formed command (R67 to R71). -/
def encode : Instr → List Byte
  | .pkInit wc => frameOf 0x1#4 wc []
  | .pkWrite11 v => frameOf 0x2#4 v []
  | .pkFinish => frameOf 0x3#4 0#11 []
  | .pkTake => frameOf 0x4#4 0#11 []
  | .upInit slice => frameOf 0x5#4 (BitVec.ofNat 11 slice.length) slice
  | .upRead11 => frameOf 0x6#4 0#11 []
  | .mnEncode entropy => frameOf 0x8#4 (BitVec.ofNat 11 entropy.length) entropy
  | .mnDecode tokens => frameOf 0x9#4 (BitVec.ofNat 11 tokens.length) (bytesOfTokens tokens)

/-- R71: the payload length P that OP and ARG fix. -/
def payloadLength (op : BitVec 4) (arg : BitVec 11) : Nat :=
  match op.toNat with
  | 0x5 => arg.toNat
  | 0x8 => arg.toNat
  | 0x9 => 2 * arg.toNat
  | _ => 0

/-- `n` payload bytes taken from `w`, eight bits each, the first from the lowest bits (log 16). -/
def bytesOfBits : Nat → Nat → List Byte
  | 0, _ => []
  | n + 1, w => BitVec.ofNat 8 w :: bytesOfBits n (w / 256)

/-- `n` payload words taken from `w`, sixteen bits each, the first from the lowest bits, each sent most significant byte
first (log 16). -/
def wordsOfBits : Nat → Nat → List Byte
  | 0, _ => []
  | n + 1, w => be16Bytes (BitVec.ofNat 16 w) ++ wordsOfBits n (w / 65536)

/-- A payload of the form and length that OP and ARG fix, its bits taken from `w` (R69, R70, R71; log 16). -/
def payloadOfBits (op : BitVec 4) (arg : BitVec 11) (w : Nat) : List Byte :=
  if op = 0x9#4 then wordsOfBits arg.toNat w else bytesOfBits (payloadLength op arg) w

/-- The frame whose header is the low 16 bits of `w` (the table's one word, sent most significant byte first) and whose
payload, as long as that header says, is taken from the bits above; bits at and above `nbits` are 0 (log 16). -/
def frameOfTableWord (nbits w : Nat) : List Byte :=
  let bits := w % 2 ^ nbits
  let h : Word16 := BitVec.ofNat 16 bits
  be16Bytes h ++ payloadOfBits (opField h) (argField h) (bits / 65536)

/-- The instruction the decoder reads from an instruction whose bits are `w`, numbered as spec/opcode_table.json does. -/
def decodeTableWord (nbits w : Nat) : Option Instr :=
  match decode (frameOfTableWord nbits w) with
  | .ok i => some i
  | .error _ => none

end Sys2Proof
end

