-- ==== Sys2Proof/Machine/State.lean ====
section
/-! DEFINITION. The architectural state of one instance (spec/10_state.md R10 to R22), the host's queue of events and of
responses (log 1), the ways a command can stop, and the state after reset (R30, spec/70_reset_and_hazards.md R190). -/

namespace Sys2Proof.Machine

/-- PK.PHASE (R11), 2 bits: 0 IDLE, 1 OPEN, 2 DONE. The value 3 "never occurs" (R10) and is not represented (log 13). -/
inductive PkPhase where
  | idle     -- no packer constructed since reset
  | opened   -- OPEN: PK.INIT has run and PK.FINISH has not
  | done     -- PK.FINISH has run: the result may be read
  deriving DecidableEq, Repr

/-- UP.PHASE (R19), 1 bit: 0 UNBOUND, 1 BOUND. -/
inductive UpPhase where
  | unbound
  | bound
  deriving DecidableEq, Repr

/-- The six fault codes of spec/60_exceptions.md R163. -/
inductive FaultCode where
  | pkCountTooLarge   -- 1
  | pkProtocol        -- 2
  | pkOverflow        -- 3
  | upProtocol        -- 4
  | upReadPastEnd     -- 5
  | badCommand        -- 6
  deriving DecidableEq, Repr

/-- The four errors of spec/60_exceptions.md R160. -/
inductive MnError where
  | invalidEntropyLength   -- 0x01
  | invalidWordCount       -- 0x02
  | unknownWord            -- 0x03
  | checksumMismatch       -- 0x04
  deriving DecidableEq, Repr

/-- A byte buffer: (index, byte) cells, indices strictly rising (`Memory.wf`). An unlisted index has never been written
and reads as nothing here; what a command sees there is a free value (log 5). -/
abbrev Memory := List Host.Cell

/-- The seven elements of the BitPacker (R10 to R18). MN.DECODE's private packer is one too (R26). -/
structure Packer where
  phase : PkPhase      -- PK.PHASE
  wc : BitVec 5        -- PK.WC
  cnt : BitVec 5       -- PK.CNT
  buf : Memory         -- PK.BUF[0..33]
  len : BitVec 6       -- PK.LEN
  acc : BitVec 7       -- PK.ACC
  nacc : BitVec 3      -- PK.NACC
  deriving DecidableEq, Repr

/-- The four elements of the BitUnpacker (R19 to R21). MN.ENCODE's private unpacker is one too (R26). -/
structure Unpacker where
  phase : UpPhase      -- UP.PHASE
  buf : Memory         -- UP.BUF[0..2046]
  len : BitVec 11      -- UP.LEN
  pos : BitVec 14      -- UP.POS
  deriving DecidableEq, Repr

/-- What the host does next (R24, R190, R202; log 1). -/
inductive HostEvent where
  | rst                               -- RST is asserted while no command is in progress
  | rstDuring (bytes : List Byte)     -- RST is asserted while the command of this frame is in progress (R190)
  | frame (bytes : List Byte)         -- one command frame, delivered whole (R66)
  deriving DecidableEq, Repr

/-- The whole state of one instance, and the host's two queues. -/
structure State where
  pk : Packer
  up : Unpacker
  /-- FAULT (R22): `none` is 0, no fault. -/
  fault : Option FaultCode
  /-- The host's events not yet taken, oldest first: the model's own (log 1). -/
  inbox : List HostEvent
  /-- The response frames given, oldest first: the model's own (log 1). -/
  outbox : List (List Byte)
  deriving DecidableEq, Repr

/-- A response before it is written as bytes (spec/30_encoding.md R72, R73). -/
inductive Response where
  | done                                                          -- OK, no payload
  | taken (bytes : List Byte)                                     -- OK of PK.TAKE
  | value (v : Group)                                             -- OK of UP.READ11
  | indices (g : List Group)                                      -- OK of MN.ENCODE
  | recovered (g : List Group) (entropy : List Byte)              -- OK of MN.DECODE
  | error (e : MnError)                                           -- an error of R160
  | fault (c : FaultCode)                                         -- a fault of R163
  deriving DecidableEq, Repr

/-- How an operation ends without completing: the primitives of spec/00_scope.md R9, and the model's own stop. -/
inductive Stop where
  | fail (e : MnError)        -- `fail E`
  | raise (c : FaultCode)     -- `require ... else fault F`
  | outside (i : Nat)         -- an index outside PK.BUF[0..33] (log 7)
  deriving DecidableEq, Repr

/-- Reasons a step can stop the model. The block's own faults (R163) are not among them: the block answers and goes on. -/
inductive Fault where
  /-- Raised by PK.WRITE11, PK.FINISH and PK.TAKE for an index outside PK.BUF[0..33], which happens only in states with
  PK.LEN above 33 (R96: no run from reset reaches one). SAFE: the model stops (log 7). -/
  | outsidePkBuf (index : Nat)
  deriving DecidableEq, Repr

/-- Reasons the model gives a term no meaning. -/
inductive Refusal where
  /-- Raised by an arm of exec whose instruction has no meaning yet. SAFE: the model stops. -/
  | notModelled (mnemonic : String)
  /-- Raised by UP.INIT of a slice of more than 2047 bytes, which no frame can state (R68): an ill-formed term, never
  decoded from a frame. SAFE: the model stops (log 11). -/
  | sliceTooLong (length : Nat)
  deriving DecidableEq, Repr

/-- The packer of R30: IDLE, counters 0, nothing listed in the buffer. -/
def Packer.reset : Packer :=
  { phase := .idle, wc := 0#5, cnt := 0#5, buf := [], len := 0#6, acc := 0#7, nacc := 0#3 }

/-- The unpacker of R30: UNBOUND, counters 0, nothing listed in the buffer. -/
def Unpacker.reset : Unpacker :=
  { phase := .unbound, buf := [], len := 0#11, pos := 0#14 }

/-- The state after reset (R30, R190): no event is waiting and no response has been given (log 1). -/
def State.reset : State :=
  { pk := Packer.reset, up := Unpacker.reset, fault := none, inbox := [], outbox := [] }

end Sys2Proof.Machine
end

