-- ==== Sys2Proof/Machine/Flags.lean ====
section
/-! DEFINITION. There are no condition codes (spec/10_state.md R23); the only status is FAULT. This file holds the numbers of
the phases, the errors and the faults, and the status byte of a response (R10, spec/30_encoding.md R74,
spec/60_exceptions.md R160, R163). -/

namespace Sys2Proof.Machine

/-- The 2-bit value of PK.PHASE (R10). -/
def PkPhase.code : PkPhase → BitVec 2
  | .idle => 0
  | .opened => 1
  | .done => 2

/-- The 1-bit value of UP.PHASE (R10). -/
def UpPhase.code : UpPhase → BitVec 1
  | .unbound => 0
  | .bound => 1

/-- The fault codes of R163. -/
def FaultCode.code : FaultCode → BitVec 3
  | .pkCountTooLarge => 1
  | .pkProtocol => 2
  | .pkOverflow => 3
  | .upProtocol => 4
  | .upReadPastEnd => 5
  | .badCommand => 6

/-- The 3-bit value of FAULT (R10, R22). -/
def State.faultReg (s : State) : BitVec 3 :=
  match s.fault with
  | none => 0
  | some c => c.code

/-- The error status codes of R160. -/
def MnError.status : MnError → Byte
  | .invalidEntropyLength => 0x01
  | .invalidWordCount => 0x02
  | .unknownWord => 0x03
  | .checksumMismatch => 0x04

/-- The fault status `0x80 | f` (R74). -/
def FaultCode.status (c : FaultCode) : Byte := 0x80#8 ||| c.code.setWidth 8

/-- The status byte of a response (R74). -/
def Response.status : Response → Byte
  | .done => 0x00
  | .taken _ => 0x00
  | .value _ => 0x00
  | .indices _ => 0x00
  | .recovered _ _ => 0x00
  | .error e => e.status
  | .fault c => c.status

end Sys2Proof.Machine
end

