-- ==== Sys2Proof/Machine/Operands.lean ====
section
/-! DEFINITION. The bit stream and the two addressing modes, append and cursor (spec/00_scope.md R8, spec/20_memory.md R42, R43,
R58), the 11-bit group at a stream position in both its forms (spec/30_encoding.md R61, R77), and the bytes of a response
(R72, R73). -/

namespace Sys2Proof.Machine

/-- bit(B, i) = (B[i div 8] >> (7 - (i mod 8))) & 1, with B given by its bytes (R8, R42). -/
def streamBit (bytes : Nat → Byte) (i : Nat) : Bool := (bytes (i / 8)).getLsbD (7 - i % 8)

/-- The bytes of a list as a function of the index; the value beyond the end is never used. -/
def byteOf (bs : List Byte) (k : Nat) : Byte := bs.getD k 0#8

/-- be11(v)[j] = (v >> (10 - j)) & 1 (R8). -/
def be11 (v : Group) : List Bool := (List.range 11).map fun j => v.getLsbD (10 - j)

/-- One turn of UP.READ11's loop: v <- (v << 1) | bit (spec/42_bitunpacker.md R111). -/
def shiftIn (v : Nat) (b : Bool) : Nat := 2 * v + b.toNat

/-- The 11 bits from stream position `p`, first bit most significant (R43, R61, R111). -/
def groupAt (bytes : Nat → Byte) (p : Nat) : Group :=
  BitVec.ofNat 11 (((List.range 11).map fun j => streamBit bytes (p + j)).foldl shiftIn 0)

/-- The window form of the same group: two bytes, and a third when the offset is 6 or 7 (R77, R112). -/
def windowGroup (bytes : Nat → Byte) (p : Nat) : Group :=
  let b := p / 8
  let o := p % 8
  let b2 : Nat := if 6 ≤ o then (bytes (b + 2)).toNat else 0
  let w : Nat := (bytes b).toNat * 65536 + (bytes (b + 1)).toNat * 256 + b2
  BitVec.ofNat 11 (w >>> (13 - o))

/-- An 11-bit value zero-extended to its 16-bit response field, most significant byte first (R58, R73). -/
def indexBytes (v : Group) : List Byte := be16Bytes (v.setWidth 16)

/-- The indices of a response, each two bytes (R73). -/
def indicesBytes : List Group → List Byte
  | [] => []
  | v :: vs => indexBytes v ++ indicesBytes vs

/-- A count as the one byte a response gives it (R73). -/
def countByte (n : Nat) : Byte := BitVec.ofNat 8 n

/-- The payload after the status byte (R73). -/
def Response.payload : Response → List Byte
  | .done => []
  | .taken bytes => countByte bytes.length :: bytes
  | .value v => indexBytes v
  | .indices g => countByte g.length :: indicesBytes g
  | .recovered g entropy => countByte g.length :: indicesBytes g ++ countByte entropy.length :: entropy
  | .error _ => []
  | .fault _ => []

/-- The response frame: the status byte and the payload (R72). -/
def Response.bytes (r : Response) : List Byte := r.status :: r.payload

end Sys2Proof.Machine
end

