-- ==== Sys2Proof/Machine/Ops.lean ====
section
/-! DEFINITION. The named operations: the cells of a buffer, answering a command, raising a fault and the reset that is the
only way back from one (spec/60_exceptions.md R164 to R169, spec/70_reset_and_hazards.md R190), and the taking of the
host's next event. -/

namespace Sys2Proof.Machine

/-- The byte listed at an index, if a command has written one. -/
def Memory.read : Memory → Nat → Option Byte
  | [], _ => none
  | (k, b) :: rest, i => if k = i then some b else Memory.read rest i

/-- Write one byte, keeping the indices strictly rising. -/
def Memory.write : Memory → Nat → Byte → Memory
  | [], i, v => [(i, v)]
  | (k, b) :: rest, i, v =>
    if i < k then (i, v) :: (k, b) :: rest
    else if i = k then (i, v) :: rest
    else (k, b) :: Memory.write rest i v

/-- Write consecutive bytes from an index on. -/
def Memory.writeAll : Memory → Nat → List Byte → Memory
  | m, _, [] => m
  | m, i, b :: bs => Memory.write (Memory.writeAll m (i + 1) bs) i b

/-- Every index is at least `lo`, and the indices rise strictly. -/
def Memory.risesFrom : Nat → Memory → Bool
  | _, [] => true
  | lo, (k, _) :: rest => decide (lo ≤ k) && Memory.risesFrom (k + 1) rest

/-- The canonical form: indices strictly rising. No cell can equal what an unlisted index reads as (nothing). -/
def Memory.wf (m : Memory) : Bool := Memory.risesFrom 0 m

/-- Every listed index is below the size of the buffer. -/
def Memory.below (size : Nat) (m : Memory) : Bool := m.all fun c => decide (c.1 < size)

/-- PK.BUF[i]; a free value where nothing was written (log 5). -/
def Packer.byteAt (p : Packer) (i : Nat) : Byte := (Memory.read p.buf i).getD (Config.pkUnwritten i)

/-- UP.BUF[k]; a free value where nothing was written (log 5). -/
def Unpacker.byteAt (u : Unpacker) (k : Nat) : Byte := (Memory.read u.buf k).getD (Config.upUnwritten k)

/-- Answer the command with one response frame (R72). -/
def respond (r : Response) (s : State) : State := { s with outbox := s.outbox ++ [r.bytes] }

/-- FAULT ENTRY (R166): FAULT is set to the code, no other element changes, the response is the fault's status alone. -/
def raiseFault (c : FaultCode) (s : State) : State := respond (.fault c) { s with fault := some c }

/-- RST, the only return from a fault (R169, R190): every element of R10 takes its value of R30. The host's queues are no
elements of R10 and stay (log 1). -/
def rst (s : State) : State := { State.reset with inbox := s.inbox, outbox := s.outbox }

/-- How a command ends: a completed operation answers; an error answers and changes nothing (R165); a fault is entered
(R166); an index outside PK.BUF stops the model (log 7). -/
def conclude (s : State) : Except Stop (State × Response) → Host.Outcome State Fault Refusal
  | .ok (t, r) => .next (respond r t)
  | .error (.fail e) => .next (respond (.error e) s)
  | .error (.raise c) => .next (raiseFault c s)
  | .error (.outside i) => .fault (.outsidePkBuf i)

/-- Check 1 of the common prologue (R164, R167): while FAULT is nonzero a command is answered with it and changes nothing;
otherwise the rest runs. -/
def unlessFaulted (s : State) (rest : Host.Outcome State Fault Refusal) : Host.Outcome State Fault Refusal :=
  match s.fault with
  | some c => .next (respond (.fault c) s)
  | none => rest

/-- A command with its operation: the prologue, then the operation's own checks and effect (R164 checks 1 and 3). -/
def command (s : State) (operation : Except Stop (State × Response)) : Host.Outcome State Fault Refusal :=
  unlessFaulted s (conclude s operation)

/-- An illegal frame (R164 checks 1 and 2, R75): BadCommand, unless an older fault refuses it. -/
def illegalCommand (s : State) : Host.Outcome State Fault Refusal :=
  unlessFaulted s (.next (raiseFault .badCommand s))

/-- The host's next event, taken from its queue. -/
inductive Taken where
  | nothing                                      -- the host sends nothing
  | signal (after : State)                       -- RST was asserted; the state it leaves
  | command (bytes : List Byte) (before : State) -- a command frame, and the state it is executed in
  deriving DecidableEq, Repr

/-- Take the next event (R24, R53, R190). RST during a command abandons it without a response. -/
def takeEvent (s : State) : Taken :=
  match s.inbox with
  | [] => .nothing
  | .rst :: rest => .signal (rst { s with inbox := rest })
  | .rstDuring _ :: rest => .signal (rst { s with inbox := rest })
  | .frame bytes :: rest => .command bytes { s with inbox := rest }

/-- Put a frame where the next step takes its event from. -/
def placeFrame (bytes : List Byte) (s : State) : State := { s with inbox := .frame bytes :: s.inbox }

end Sys2Proof.Machine
end

