-- ==== Sys2Proof/Machine/BitPacker.lean ====
section
/-! DEFINITION. The BitPacker (spec/41_bitpacker.md): the operations on a packer, host-visible or private, and the commands
PK.INIT, PK.WRITE11, PK.FINISH, PK.TAKE. -/

namespace Sys2Proof.Machine

/-- push(b): PK.BUF[PK.LEN] <- b; PK.LEN <- PK.LEN + 1 (spec/00_scope.md R9, R41, R58). -/
def push (b : Byte) (p : Packer) : Except Stop Packer :=
  if p.len.toNat < Config.pkBufBytes then
    .ok { p with buf := Memory.write p.buf p.len.toNat b, len := p.len + 1 }
  else .error (.outside p.len.toNat)

/-- R90. PK.BUF is not touched: its bytes are discarded by PK.LEN = 0 (R14; log 6). -/
def packerInit (wc : BitVec 11) (p : Packer) : Except Stop Packer :=
  if wc.toNat ≤ Config.pkMaxWc then
    .ok { p with phase := .opened, wc := BitVec.ofNat 5 wc.toNat, cnt := 0#5, len := 0#6, acc := 0#7, nacc := 0#3 }
  else .error (.raise .pkCountTooLarge)

/-- The byte that step A of R91 pushes: `((PK.ACC << take) | (v >> rem)) & 0xFF`, `take` = 8 - PK.NACC, `rem` = 11 - take. -/
def partialByte (v : Group) (p : Packer) : Byte :=
  BitVec.ofNat 8 (p.acc.toNat <<< (8 - p.nacc.toNat) ||| v.toNat >>> (11 - (8 - p.nacc.toNat)))

/-- Step A of R91: fill the current partial byte. Answers the packer and `rem`, the bits of `v` not yet placed. -/
def fillPartial (v : Group) (p : Packer) : Except Stop (Packer × Nat) :=
  if 0 < p.nacc.toNat then
    match push (partialByte v p) p with
    | .ok q => .ok ({ q with acc := 0#7, nacc := 0#3 }, 11 - (8 - p.nacc.toNat))
    | .error e => .error e
  else .ok (p, 11)

/-- Step B of R91: whole bytes. Its loop runs 0 times or once (R91, R200), since `rem` is at most 11. -/
def wholeBytes (v : Group) (p : Packer) (rem : Nat) : Except Stop (Packer × Nat) :=
  if 8 ≤ rem then
    match push (BitVec.ofNat 8 (v.toNat >>> (rem - 8))) p with
    | .ok q => .ok (q, rem - 8)
    | .error e => .error e
  else .ok (p, rem)

/-- Step C of R91: keep the remainder. -/
def keepRemainder (v : Group) (p : Packer) (rem : Nat) : Packer :=
  if 0 < rem then { p with acc := BitVec.ofNat 7 (v.toNat % 2 ^ rem), nacc := BitVec.ofNat 3 rem } else p

/-- R91, the three steps after the two checks. -/
def append11 (v : Group) (p : Packer) : Except Stop Packer :=
  match fillPartial v p with
  | .error e => .error e
  | .ok (p1, rem1) =>
    match wholeBytes v p1 rem1 with
    | .error e => .error e
    | .ok (p2, rem2) =>
      let p3 := keepRemainder v p2 rem2
      .ok { p3 with cnt := p3.cnt + 1 }

/-- R91: the phase is checked before the count (R164). -/
def packerWrite11 (v : Group) (p : Packer) : Except Stop Packer :=
  if p.phase = .opened then
    if p.cnt.toNat < p.wc.toNat then append11 v p else .error (.raise .pkOverflow)
  else .error (.raise .pkProtocol)

/-- The last byte that `finish` pushes, for either reading of PK_FINAL_ALIGN (R92, U1; log 9). -/
def finalByte (align : Config.FinalAlign) (p : Packer) : Byte :=
  match align with
  | .high => BitVec.ofNat 8 (p.acc.toNat <<< (8 - p.nacc.toNat))
  | .low => BitVec.ofNat 8 p.acc.toNat

/-- R92: flush the residue and close the packer. -/
def packerFinish (align : Config.FinalAlign) (p : Packer) : Except Stop Packer :=
  if p.phase = .opened then
    if 0 < p.nacc.toNat then
      match push (finalByte align p) p with
      | .ok q => .ok { q with acc := 0#7, nacc := 0#3, phase := .done }
      | .error e => .error e
    else .ok { p with phase := .done }
  else .error (.raise .pkProtocol)

/-- PK.BUF[0 .. PK.LEN-1], the result of a finished packer. -/
def Packer.result (p : Packer) : List Byte := (List.range p.len.toNat).map p.byteAt

/-- R93: the result, in phase DONE only. -/
def packerTake (p : Packer) : Except Stop (List Byte) :=
  if p.phase = .done then
    if p.len.toNat ≤ Config.pkBufBytes then .ok p.result else .error (.outside Config.pkBufBytes)
  else .error (.raise .pkProtocol)

/-- A command that changes the packer and answers OK without a payload. -/
def packerCommand (s : State) (result : Except Stop Packer) : Host.Outcome State Fault Refusal :=
  command s (match result with
    | .ok p => .ok ({ s with pk := p }, .done)
    | .error e => .error e)

/-- PK.INIT (R90). -/
def execPkInit (wc : BitVec 11) (s : State) : Host.Outcome State Fault Refusal :=
  packerCommand s (packerInit wc s.pk)

/-- PK.WRITE11 (R91). -/
def execPkWrite11 (v : Group) (s : State) : Host.Outcome State Fault Refusal :=
  packerCommand s (packerWrite11 v s.pk)

/-- PK.FINISH (R92). -/
def execPkFinish (s : State) : Host.Outcome State Fault Refusal :=
  packerCommand s (packerFinish Config.pkFinalAlign s.pk)

/-- PK.TAKE (R93): no state is written. -/
def execPkTake (s : State) : Host.Outcome State Fault Refusal :=
  command s (match packerTake s.pk with
    | .ok bytes => .ok (s, .taken bytes)
    | .error e => .error e)

end Sys2Proof.Machine
end

