-- ==== Sys2Proof/Machine/BitUnpacker.lean ====
section
/-! DEFINITION. The BitUnpacker (spec/42_bitunpacker.md): the operations on an unpacker, host-visible or private, and the
commands UP.INIT and UP.READ11. -/

namespace Sys2Proof.Machine

/-- R110, for a slice of at most 2047 bytes: the payload is copied to UP.BUF[0..]; bytes beyond it stay (log 6). -/
def unpackerInit (slice : List Byte) (u : Unpacker) : Unpacker :=
  { u with phase := .bound, buf := Memory.writeAll u.buf 0 slice, len := BitVec.ofNat 11 slice.length, pos := 0#14 }

/-- R111: the next 11 bits, and the cursor 11 further. The phase is checked before the bounds (R164). -/
def unpackerRead11 (u : Unpacker) : Except Stop (Group × Unpacker) :=
  if u.phase = .bound then
    if u.pos.toNat + 11 ≤ 8 * u.len.toNat then
      .ok (groupAt u.byteAt u.pos.toNat, { u with pos := u.pos + 11#14 })
    else .error (.raise .upReadPastEnd)
  else .error (.raise .upProtocol)

/-- `n` successive reads (spec/44_codec.md R130 step 5). -/
def readGroups : Nat → Unpacker → Except Stop (List Group)
  | 0, _ => .ok []
  | n + 1, u =>
    match unpackerRead11 u with
    | .error e => .error e
    | .ok (v, u') =>
      match readGroups n u' with
      | .error e => .error e
      | .ok vs => .ok (v :: vs)

/-- UP.INIT (R110). No frame states a longer slice, so a longer one has no meaning (R68; log 11). -/
def execUpInit (slice : List Byte) (s : State) : Host.Outcome State Fault Refusal :=
  if slice.length ≤ Config.upCap then command s (.ok ({ s with up := unpackerInit slice s.up }, .done))
  else .refused (.sliceTooLong slice.length)

/-- UP.READ11 (R111). -/
def execUpRead11 (s : State) : Host.Outcome State Fault Refusal :=
  command s (match unpackerRead11 s.up with
    | .ok (v, u) => .ok ({ s with up := u }, .value v)
    | .error e => .error e)

end Sys2Proof.Machine
end

