-- ==== Sys2Proof/Machine/FrameValidator.lean ====
section
/-! DEFINITION. The frame validator (spec/43_frame_validator.md): three checks and three functions, combinational. The hash
collaborator is an argument. -/

namespace Sys2Proof.Machine

/-- FV.ELEN (R120). -/
def fvElen (l : Nat) : Except Stop Unit :=
  if 16 ≤ l ∧ l ≤ 32 ∧ l % 4 = 0 then .ok () else .error (.fail .invalidEntropyLength)

/-- FV.WCNT (R121). -/
def fvWcnt (n : Nat) : Except Stop Unit :=
  if 12 ≤ n ∧ n ≤ 24 ∧ n % 3 = 0 then .ok () else .error (.fail .invalidWordCount)

/-- FV.WORDS (R123), applied after FV.ELEN passed. -/
def fvWords (l : Nat) : Nat := l * 3 / 4

/-- FV.CSBITS (R124), applied after FV.WCNT passed. -/
def fvCsbits (n : Nat) : Nat := n / 3

/-- FV.SPLIT (R125): entropy and checksum byte. -/
def fvSplit (a : List Byte) : List Byte × Byte := (a.dropLast, a.getLastD 0#8)

/-- The embedded checksum bits as a number, for either reading of PK_FINAL_ALIGN (R122; log 9). -/
def embeddedBits (align : Config.FinalAlign) (checksum : Byte) (c : Nat) : Nat :=
  match align with
  | .high => checksum.toNat >>> (8 - c)
  | .low => checksum.toNat % 2 ^ c

/-- The expected checksum bits as a number: the top `c` bits of the first digest byte (R122). -/
def expectedBits (h1 : List Byte → Byte) (entropy : List Byte) (c : Nat) : Nat := (h1 entropy).toNat >>> (8 - c)

/-- FV.CSUM (R122). -/
def fvCsum (align : Config.FinalAlign) (h1 : List Byte → Byte) (a : List Byte) (n : Nat) : Except Stop Unit :=
  let (entropy, checksum) := fvSplit a
  if embeddedBits align checksum (fvCsbits n) = expectedBits h1 entropy (fvCsbits n) then .ok ()
  else .error (.fail .checksumMismatch)

end Sys2Proof.Machine
end

