-- ==== Sys2Proof/Machine/Sha256.lean ====
section
/-! DEFINITION. The hash collaborator H1 (spec/45_hash_sha256.md): the first byte of SHA-256, written from rules R152 to R156
(log 8). Only concrete values of H1 depend on it; the validator and the codec take the hash as an argument. -/

namespace Sys2Proof.Machine.Sha256

/-- ssig0 (R153). -/
def ssig0 (x : Word32) : Word32 := x.rotateRight 7 ^^^ x.rotateRight 18 ^^^ x >>> 3

/-- ssig1 (R153). -/
def ssig1 (x : Word32) : Word32 := x.rotateRight 17 ^^^ x.rotateRight 19 ^^^ x >>> 10

/-- bsig0 (R154). -/
def bsig0 (x : Word32) : Word32 := x.rotateRight 2 ^^^ x.rotateRight 13 ^^^ x.rotateRight 22

/-- bsig1 (R154). -/
def bsig1 (x : Word32) : Word32 := x.rotateRight 6 ^^^ x.rotateRight 11 ^^^ x.rotateRight 25

/-- ch (R154). -/
def ch (x y z : Word32) : Word32 := (x &&& y) ^^^ (~~~x &&& z)

/-- maj (R154). -/
def maj (x y z : Word32) : Word32 := (x &&& y) ^^^ (x &&& z) ^^^ (y &&& z)

/-- The round constants K[0..63] (R155). -/
def roundConstants : List Word32 :=
  [0x428a2f98, 0x71374491, 0xb5c0fbcf, 0xe9b5dba5, 0x3956c25b, 0x59f111f1, 0x923f82a4, 0xab1c5ed5]
    ++ [0xd807aa98, 0x12835b01, 0x243185be, 0x550c7dc3, 0x72be5d74, 0x80deb1fe, 0x9bdc06a7, 0xc19bf174]
    ++ [0xe49b69c1, 0xefbe4786, 0x0fc19dc6, 0x240ca1cc, 0x2de92c6f, 0x4a7484aa, 0x5cb0a9dc, 0x76f988da]
    ++ [0x983e5152, 0xa831c66d, 0xb00327c8, 0xbf597fc7, 0xc6e00bf3, 0xd5a79147, 0x06ca6351, 0x14292967]
    ++ [0x27b70a85, 0x2e1b2138, 0x4d2c6dfc, 0x53380d13, 0x650a7354, 0x766a0abb, 0x81c2c92e, 0x92722c85]
    ++ [0xa2bfe8a1, 0xa81a664b, 0xc24b8b70, 0xc76c51a3, 0xd192e819, 0xd6990624, 0xf40e3585, 0x106aa070]
    ++ [0x19a4c116, 0x1e376c08, 0x2748774c, 0x34b0bcb5, 0x391c0cb3, 0x4ed8aa4a, 0x5b9cca4f, 0x682e6ff3]
    ++ [0x748f82ee, 0x78a5636f, 0x84c87814, 0x8cc70208, 0x90befffa, 0xa4506ceb, 0xbef9a3f7, 0xc67178f2]

/-- The eight words a..h, or H[0..7] (R154). -/
structure Words where
  a : Word32
  b : Word32
  c : Word32
  d : Word32
  e : Word32
  f : Word32
  g : Word32
  h : Word32
  deriving DecidableEq, Repr

/-- The initial H[0..7] (R154). -/
def initial : Words :=
  ⟨0x6a09e667, 0xbb67ae85, 0x3c6ef372, 0xa54ff53a, 0x510e527f, 0x9b05688c, 0x1f83d9ab, 0x5be0cd19⟩

/-- A 64-bit big-endian integer (R152). -/
def be64Bytes (n : Nat) : List Byte := (List.range 8).map fun k => BitVec.ofNat 8 (n >>> (56 - 8 * k))

/-- The number of 0x00 bytes after the 0x80: the fewest that make the length 56 modulo 64 (R152). -/
def zeroCount (len : Nat) : Nat := (64 + 55 - len % 64) % 64

/-- The padded message (R152). -/
def pad (m : List Byte) : List Byte :=
  m ++ 0x80#8 :: List.replicate (zeroCount m.length) 0x00#8 ++ be64Bytes (8 * m.length)

/-- Bytes as 32-bit big-endian words (R153). -/
def wordsOf : List Byte → List Word32
  | p :: q :: r :: s :: rest => (p ++ q ++ r ++ s) :: wordsOf rest
  | _ => []

/-- W[t] from the sixteen words before it, the newest first (R153). -/
def nextWord (newest : List Word32) : Word32 :=
  ssig1 (newest.getD 1 0) + newest.getD 6 0 + ssig0 (newest.getD 14 0) + newest.getD 15 0

/-- `n` more words of the schedule, the newest first (R153). -/
def extend : Nat → List Word32 → List Word32
  | 0, ws => ws
  | n + 1, ws => extend n (nextWord ws :: ws)

/-- W[0..63] of one block of sixteen words (R153). -/
def schedule (block : List Word32) : List Word32 := (extend 48 block.reverse).reverse

/-- One round t with K[t] and W[t] (R154). -/
def round (x : Words) (kw : Word32 × Word32) : Words :=
  let t1 := x.h + bsig1 x.e + ch x.e x.f x.g + kw.1 + kw.2
  let t2 := bsig0 x.a + maj x.a x.b x.c
  ⟨t1 + t2, x.a, x.b, x.c, x.d + t1, x.e, x.f, x.g⟩

/-- H[i] + (a..h)[i] for each i (R154). -/
def Words.add (x y : Words) : Words :=
  ⟨x.a + y.a, x.b + y.b, x.c + y.c, x.d + y.d, x.e + y.e, x.f + y.f, x.g + y.g, x.h + y.h⟩

/-- One block (R154). -/
def compress (x : Words) (block : List Word32) : Words :=
  x.add ((roundConstants.zip (schedule block)).foldl round x)

/-- `n` blocks of sixteen words, in order (R154). -/
def compressAll : Nat → Words → List Word32 → Words
  | 0, x, _ => x
  | n + 1, x, ws => compressAll n (compress x (ws.take 16)) (ws.drop 16)

/-- The final H[0..7] (R152 to R154). -/
def hash (m : List Byte) : Words :=
  let ws := wordsOf (pad m)
  compressAll (ws.length / 16) initial ws

/-- A 32-bit word as four bytes, most significant first (R156). -/
def be32Bytes (x : Word32) : List Byte := be16Bytes (x.extractLsb' 16 16) ++ be16Bytes (x.extractLsb' 0 16)

/-- The digest H[0] ‖ ... ‖ H[7], 32 bytes (R156). -/
def digest (m : List Byte) : List Byte :=
  let x := hash m
  be32Bytes x.a ++ be32Bytes x.b ++ be32Bytes x.c ++ be32Bytes x.d
    ++ be32Bytes x.e ++ be32Bytes x.f ++ be32Bytes x.g ++ be32Bytes x.h

/-- H1(M) = H[0] >> 24, the first byte of the digest (R151, R156). -/
def h1 (m : List Byte) : Byte := (hash m).a.extractLsb' 24 8

end Sys2Proof.Machine.Sha256
end

