-- ==== Sys2Proof/Machine/Codec.lean ====
section
/-! DEFINITION. The mnemonic codec (spec/44_codec.md R130 to R138): the two conversions, each over a private unpacker or packer
that lives for one command (spec/10_state.md R26), and the commands MN.ENCODE and MN.DECODE. -/

namespace Sys2Proof.Machine

/-- R130, steps 1 to 5. The whole digest byte is appended (R62); the reader never reaches its low bits. -/
def codecEncode (h1 : List Byte → Byte) (entropy : List Byte) : Except Stop (List Group) :=
  match fvElen entropy.length with
  | .error e => .error e
  | .ok () => readGroups (fvWords entropy.length) (unpackerInit (entropy ++ [h1 entropy]) Unpacker.reset)

/-- Successive writes to a packer (R133 step 4). -/
def packAll : List Group → Packer → Except Stop Packer
  | [], p => .ok p
  | v :: vs, p =>
    match packerWrite11 v p with
    | .error e => .error e
    | .ok q => packAll vs q

/-- R133 step 4: a private packer constructed for the values, written, finished and read. -/
def packIndices (align : Config.FinalAlign) (vs : List Group) : Except Stop (List Byte) :=
  match packerInit (BitVec.ofNat 11 vs.length) Packer.reset with
  | .error e => .error e
  | .ok p0 =>
    match packAll vs p0 with
    | .error e => .error e
    | .ok p1 =>
      match packerFinish align p1 with
      | .error e => .error e
      | .ok p2 => packerTake p2

/-- R133 step 3: any miss fails, whatever its IDX holds (R70). -/
def lookupCheck : List Token → Except Stop Unit
  | [] => .ok ()
  | t :: ts => if t.miss then .error (.fail .unknownWord) else lookupCheck ts

/-- R133, steps 2 to 8: the indices it was given and the recovered entropy. The checks run in the order count, lookup,
checksum (R126, R134). -/
def codecDecode (align : Config.FinalAlign) (h1 : List Byte → Byte) (tokens : List Token) :
    Except Stop (List Group × List Byte) :=
  match fvWcnt tokens.length with
  | .error e => .error e
  | .ok () =>
    match lookupCheck tokens with
    | .error e => .error e
    | .ok () =>
      match packIndices align (tokens.map Token.idx) with
      | .error e => .error e
      | .ok a =>
        match fvCsum align h1 a tokens.length with
        | .error e => .error e
        | .ok () => .ok (tokens.map Token.idx, (fvSplit a).1)

/-- MN.ENCODE (R130): no state is written (R26, R138). -/
def execMnEncode (entropy : List Byte) (s : State) : Host.Outcome State Fault Refusal :=
  command s (match codecEncode Sha256.h1 entropy with
    | .ok g => .ok (s, .indices g)
    | .error e => .error e)

/-- MN.DECODE (R133): no state is written (R26, R138). -/
def execMnDecode (tokens : List Token) (s : State) : Host.Outcome State Fault Refusal :=
  command s (match codecDecode Config.pkFinalAlign Sha256.h1 tokens with
    | .ok (g, entropy) => .ok (s, .recovered g entropy)
    | .error e => .error e)

end Sys2Proof.Machine
end

