-- ==== Sys2Proof/Machine/Dispatch.lean ====
section
/-! DEFINITION. One arm per command: which meaning runs it (spec/30_encoding.md R67). -/

namespace Sys2Proof.Machine

def exec (i : Instr) (s : State) : Host.Outcome State Fault Refusal :=
  match i with
  | .pkInit wc => Sys2Proof.Machine.execPkInit wc s
  | .pkWrite11 v => Sys2Proof.Machine.execPkWrite11 v s
  | .pkFinish => Sys2Proof.Machine.execPkFinish s
  | .pkTake => Sys2Proof.Machine.execPkTake s
  | .upInit slice => Sys2Proof.Machine.execUpInit slice s
  | .upRead11 => Sys2Proof.Machine.execUpRead11 s
  | .mnEncode entropy => Sys2Proof.Machine.execMnEncode entropy s
  | .mnDecode tokens => Sys2Proof.Machine.execMnDecode tokens s

end Sys2Proof.Machine
end

