-- ==== Sys2Proof/Machine/Step.lean ====
section
/-! DEFINITION. One step: the host's next event is taken and handled whole (spec/20_memory.md R50, R53, spec/60_exceptions.md
R164, spec/70_reset_and_hazards.md R190). Without an event nothing happens (log 2). -/

namespace Sys2Proof.Machine

/-- One step of one instance. -/
def step (s : State) : Host.Outcome State Fault Refusal :=
  match takeEvent s with
  | .nothing => .next s
  | .signal after => .next after
  | .command bytes before =>
    match decode bytes with
    | .ok i => exec i before
    | .error _ => illegalCommand before

/-- `s` with the instruction's frame as the host's next event (log 3). -/
def State.withFetchWord (s : State) (nbits w : Nat) : State := placeFrame (frameOfTableWord nbits w) s

end Sys2Proof.Machine
end

