-- ==== Sys2Proof/Machine/HostText.lean ====
section
/-! DEFINITION. The host-side text operations (spec/44_codec.md R140 to R143, spec/30_encoding.md R65, R79) over the dictionary
collaborator, which is an argument (spec/10_state.md R28; log 10). -/

namespace Sys2Proof.Machine

/-- DICT : [0, 2047] → Word (R6, R28). -/
abbrev Dictionary := Group → Text

/-- The ASCII space, 0x20 (R65). -/
def space : Byte := 0x20

/-- Byte-wise lexicographic order, strict (R28, D19). -/
def textBefore : Text → Text → Bool
  | [], [] => false
  | [], _ :: _ => true
  | _ :: _, [] => false
  | a :: as, b :: bs => decide (a.toNat < b.toNat) || (decide (a = b) && textBefore as bs)

/-- A nonempty run of lowercase ASCII letters (R28, R142). -/
def isWord (w : Text) : Bool := !w.isEmpty && w.all fun b => decide (97 ≤ b.toNat) && decide (b.toNat ≤ 122)

/-- The contract of DICT: 2048 lowercase words in strictly rising byte order, hence distinct (R28). -/
def Dictionary.Contract (dict : Dictionary) : Prop :=
  (∀ i, isWord (dict i) = true) ∧ ∀ i j : Group, i.toNat < j.toNat → textBefore (dict i) (dict j) = true

/-- The four pinned entries of R28: "abandon", "about", "wrong", "zoo" in ASCII (G4). -/
def Dictionary.Pinned (dict : Dictionary) : Prop :=
  dict 0#11 = [0x61, 0x62, 0x61, 0x6e, 0x64, 0x6f, 0x6e] ∧ dict 3#11 = [0x61, 0x62, 0x6f, 0x75, 0x74] ∧
    dict 2037#11 = [0x77, 0x72, 0x6f, 0x6e, 0x67] ∧ dict 2047#11 = [0x7a, 0x6f, 0x6f]

/-- Words joined with single spaces, no trailing delimiter (R65). -/
def joinWords : List Text → Text
  | [] => []
  | [w] => w
  | w :: v :: ws => w ++ space :: joinWords (v :: ws)

/-- FORMAT (R140). -/
def formatWords (dict : Dictionary) (g : List Group) : Text := joinWords (g.map dict)

/-- PARSE (R141): every 0x20 is a delimiter; empty runs are words. -/
def parseWords : Text → List Text
  | [] => [[]]
  | b :: rest =>
    if b = space then [] :: parseWords rest
    else
      match parseWords rest with
      | [] => [[b]]
      | w :: ws => (b :: w) :: ws

/-- The least index below `2048` whose entry is `w`, searched from `2048 - n` on. -/
def findIndex (dict : Dictionary) (w : Text) : Nat → Option Group
  | 0 => none
  | n + 1 =>
    let i := BitVec.ofNat 11 (2047 - n)
    if dict i = w then some i else findIndex dict w n

/-- The token of a search's result (R142). -/
def tokenOf : Option Group → Token
  | some i => ⟨false, i⟩
  | none => ⟨true, 0#11⟩

/-- LOOKUP (R142), defined by its result. -/
def lookup (dict : Dictionary) (w : Text) : Token := tokenOf (findIndex dict w 2048)

/-- The document's own search method, a binary search of the `2 ^ n` entries from `lo` on (R142: not observable). -/
def binarySearch (dict : Dictionary) (w : Text) : Nat → Nat → Option Group
  | 0, lo => if dict (BitVec.ofNat 11 lo) = w then some (BitVec.ofNat 11 lo) else none
  | n + 1, lo =>
    if textBefore w (dict (BitVec.ofNat 11 (lo + 2 ^ n))) then binarySearch dict w n lo
    else binarySearch dict w n (lo + 2 ^ n)

/-- What a text operation gives its caller (R143). -/
inductive TextResult where
  | text (t : Text)                                  -- MN.TOTEXT succeeded
  | words (ws : List Text) (entropy : List Byte)     -- MN.FROMTEXT succeeded
  | status (st : Byte)                               -- the error, or the fault status the block answered (log 20)
  | silent                                           -- the model stopped: no response
  deriving DecidableEq, Repr

/-- Send one frame to the block and wait for its response frame (R199, R202). -/
def sendFrame (bytes : List Byte) (s : State) : Option (State × List Byte) :=
  match step { s with inbox := [.frame bytes] } with
  | .next t => some ({ t with inbox := s.inbox }, t.outbox.getLastD [])
  | .fault _ => none
  | .refused _ => none

/-- The 16-bit index fields of a response (R73). -/
def readIndices : List Byte → List Group
  | a :: b :: rest => (be16 a b).extractLsb' 0 11 :: readIndices rest
  | _ => []

/-- The indices of an OK response of MN.ENCODE: the count, then the fields (R73). -/
def indicesOfResponse (payload : List Byte) : List Group :=
  readIndices ((payload.drop 1).take (2 * (payload.headD 0#8).toNat))

/-- The entropy of an OK response of MN.DECODE: after the indices, a length and the bytes (R73). -/
def entropyOfResponse (payload : List Byte) : List Byte :=
  let rest := payload.drop (1 + 2 * (payload.headD 0#8).toNat)
  (rest.drop 1).take (rest.headD 0#8).toNat

/-- What the caller sees of a response frame: `onOk` of its payload if its status is OK, else the status (R143). -/
def caller (onOk : List Byte → TextResult) : List Byte → TextResult
  | [] => .silent
  | st :: payload => if st = 0#8 then onOk payload else .status st

/-- MN.TOTEXT (R79, R143). A longer entropy than ARG can state is answered by the host itself (R68). -/
def mnToText (dict : Dictionary) (entropy : List Byte) (s : State) : State × TextResult :=
  if entropy.length ≤ Config.upCap then
    match sendFrame (encode (.mnEncode entropy)) s with
    | none => (s, .silent)
    | some (t, r) => (t, caller (fun payload => .text (formatWords dict (indicesOfResponse payload))) r)
  else (s, .status MnError.invalidEntropyLength.status)

/-- MN.FROMTEXT (R79, R143). More words than ARG can state are answered by the host itself (R68). -/
def mnFromText (dict : Dictionary) (str : Text) (s : State) : State × TextResult :=
  let ws := parseWords str
  if ws.length ≤ Config.upCap then
    match sendFrame (encode (.mnDecode (ws.map (lookup dict)))) s with
    | none => (s, .silent)
    | some (t, r) => (t, caller (fun payload => .words ws (entropyOfResponse payload)) r)
  else (s, .status MnError.invalidWordCount.status)

end Sys2Proof.Machine
end

