-- ==== Sys2Proof/Machine/System.lean ====
section
/-! DEFINITION. Several commands in a row (spec/20_memory.md R53), and several independent instances (spec/60_exceptions.md R176,
spec/10_state.md R32). -/

namespace Sys2Proof.Machine

/-- Commands executed in issue order, each to completion before the next (R24, R53). -/
def execAll : List Instr → State → Host.Outcome State Fault Refusal
  | [], s => .next s
  | i :: is, s =>
    match exec i s with
    | .next t => execAll is t
    | .fault f => .fault f
    | .refused r => .refused r

/-- N_INST instances, each with its own copy of every element and its own streams (R32, R176; log 15). -/
abbrev System := List State

/-- Instance `k` takes one step; the others share nothing with it. An instance that stops leaves the system as it was. -/
def systemStep (k : Nat) (sys : System) : System :=
  match sys[k]? with
  | none => sys
  | some s =>
    match step s with
    | .next t => sys.set k t
    | .fault _ => sys
    | .refused _ => sys

/-- `n` instances right after reset (R176: they start identically). -/
def systemReset (n : Nat) : System := List.replicate n State.reset

end Sys2Proof.Machine
end

