-- ==== Sys2Proof/Safety.lean ====
section
/-! DEFINITION. What counts as a safe run, the invariant every step keeps, and the words the claims are stated in. -/

namespace Sys2Proof.Machine

/-- The block is not faulted: the premise a claim about commands takes (spec/60_exceptions.md R167). -/
def State.Ready (s : State) : Prop := s.fault = none

/-- A safe run: FAULT is 0 at its start and at its end. FAULT is sticky, so no command of it faulted (R167). -/
def CleanRun (is : List Instr) (s t : State) : Prop := s.Ready ∧ execAll is s = .next t ∧ t.Ready

/-- The packer's invariant: R12, R13, R14, R15, R16, R17 and R96 of spec/10_state.md and spec/41_bitpacker.md. -/
structure PackerInv (p : Packer) : Prop where
  wc_le : p.wc.toNat ≤ Config.pkMaxWc
  cnt_le : p.cnt.toNat ≤ p.wc.toNat
  idle_zero : p.phase = .idle → p.wc = 0#5 ∧ p.len = 0#6 ∧ p.nacc = 0#3
  open_len : p.phase = .opened → p.len.toNat = 11 * p.cnt.toNat / 8 ∧ p.nacc.toNat = 11 * p.cnt.toNat % 8
  done_len : p.phase = .done → p.len.toNat = (11 * p.cnt.toNat + 7) / 8 ∧ p.nacc = 0#3
  acc_lt : p.acc.toNat < 2 ^ p.nacc.toNat
  buf_wf : Memory.wf p.buf = true
  buf_below : Memory.below 33 p.buf = true
  buf_listed : ∀ i, i < p.len.toNat → (Memory.read p.buf i).isSome = true

/-- The unpacker's invariant: R20 and R21 of spec/10_state.md. -/
structure UnpackerInv (u : Unpacker) : Prop where
  unbound_zero : u.phase = .unbound → u.len = 0#11 ∧ u.pos = 0#14
  pos_le : u.pos.toNat ≤ 8 * u.len.toNat
  pos_multiple : u.pos.toNat % 11 = 0
  buf_wf : Memory.wf u.buf = true
  buf_below : Memory.below Config.upCap u.buf = true
  buf_listed : ∀ k, k < u.len.toNat → (Memory.read u.buf k).isSome = true

/-- The invariant of one instance. -/
structure State.Inv (s : State) : Prop where
  packer : PackerInv s.pk
  unpacker : UnpackerInv s.up

/-- Bit `i` of the stream of a byte sequence (spec/00_scope.md R8). -/
def bitOf (bs : List Byte) (i : Nat) : Bool := streamBit (byteOf bs) i

/-- The 11k bits be11(v_0) ‖ ... ‖ be11(v_{k-1}) (R18, R94). -/
def streamOf (vs : List Group) : List Bool := vs.flatMap be11

/-- The number that bits form, the first most significant. -/
def numberOf (bits : List Bool) : Nat := bits.foldl shiftIn 0

/-- Byte `k` of a bit stream. -/
def byteOfStream (bits : List Bool) (k : Nat) : Byte := BitVec.ofNat 8 (numberOf ((bits.drop (8 * k)).take 8))

/-- Group `k` of a byte sequence: the sum of R43 and R61. -/
def groupSum (bytes : Nat → Byte) (p : Nat) : Nat :=
  ∑ j ∈ Finset.range 11, (streamBit bytes (p + j)).toNat * 2 ^ (10 - j)

/-- A command that neither constructs a packer nor finishes one. -/
def KeepsPackerOpen (i : Instr) : Prop := i ≠ .pkFinish ∧ ∀ wc, i ≠ .pkInit wc

/-- The values of the PK.WRITE11 commands among others, in order. -/
def valuesWritten : List Instr → List Group
  | [] => []
  | .pkWrite11 v :: is => v :: valuesWritten is
  | _ :: is => valuesWritten is

/-- The commands of one packing job: construct, write, finish, read the result (R193). -/
def packingJob (wc : BitVec 11) (vs : List Group) : List Instr :=
  .pkInit wc :: vs.map .pkWrite11 ++ [.pkFinish, .pkTake]

/-- The commands of one unpacking job: bind a slice and read `k` groups. -/
def unpackingJob (slice : List Byte) (k : Nat) : List Instr := .upInit slice :: List.replicate k .upRead11

/-- Tokens of words that are all in the dictionary. -/
def hits (g : List Group) : List Token := g.map fun i => ⟨false, i⟩

/-- The fields of a frame read by arithmetic on its bytes (spec/30_encoding.md R77). -/
def frameOp (f : List Byte) : Nat := (byteOf f 0).toNat / 16
/-- Z of R77. -/
def frameZ (f : List Byte) : Nat := (byteOf f 0).toNat / 8 % 2
/-- ARG of R77. -/
def frameArg (f : List Byte) : Nat := (byteOf f 0).toNat % 8 * 256 + (byteOf f 1).toNat

/-- The payload length P of R71. -/
def framePayload (f : List Byte) : Nat :=
  if frameOp f = 5 ∨ frameOp f = 8 then frameArg f else if frameOp f = 9 then 2 * frameArg f else 0

/-- "A command frame is illegal if any of these holds" (R75), clause by clause. -/
def IllegalByRule (f : List Byte) : Prop :=
  f.length < 2 ∨ (frameOp f = 0 ∨ frameOp f = 7 ∨ 10 ≤ frameOp f) ∨ frameZ f = 1 ∨
    ((frameOp f = 3 ∨ frameOp f = 4 ∨ frameOp f = 6) ∧ frameArg f ≠ 0) ∨
    (frameOp f = 9 ∧ ∃ k, k < frameArg f ∧ (byteOf f (2 + 2 * k)).toNat / 16 ≠ 0) ∨
    f.length ≠ 2 + framePayload f

/-- The status bytes of R74. -/
def legalStatuses : List Byte :=
  [0x00, 0x01, 0x02, 0x03, 0x04] ++ [0x81, 0x82, 0x83, 0x84, 0x85, 0x86]

/-- Two states that differ at most in buffer bytes that nothing meaningful has written (R31). -/
structure SameButUnwritten (s t : State) : Prop where
  packer : t.pk = { s.pk with buf := t.pk.buf }
  packer_bytes : ∀ i, i < s.pk.len.toNat → t.pk.byteAt i = s.pk.byteAt i
  unpacker : t.up = { s.up with buf := t.up.buf }
  unpacker_bytes : ∀ k, k < s.up.len.toNat → t.up.byteAt k = s.up.byteAt k
  rest : t.fault = s.fault ∧ t.inbox = s.inbox ∧ t.outbox = s.outbox

end Sys2Proof.Machine
end

