-- ==== Sys2Proof/Certificates/Slice0/Obligations.lean ====
section
/-! DEFINITION. The statements for the provers. Each docstring names the rule of spec/ it formalises. -/

open Sys2Proof Sys2Proof.Machine

/-! ### Encoding -/

/-- One header of every family, written out from R66 and R67, with the payloads of R69 and R70. -/
def Obligations.WrittenOutFramesDecode : Prop :=
  decode [0x10, 0x0C] = .ok (.pkInit 12) ∧ decode [0x17, 0xFF] = .ok (.pkInit 2047) ∧
  decode [0x25, 0x55] = .ok (.pkWrite11 0x555) ∧ decode [0x30, 0x00] = .ok .pkFinish ∧
  decode [0x40, 0x00] = .ok .pkTake ∧ decode [0x50, 0x03, 0x12, 0x34, 0x56] = .ok (.upInit [0x12, 0x34, 0x56]) ∧
  decode [0x60, 0x00] = .ok .upRead11 ∧ decode [0x80, 0x01, 0xAB] = .ok (.mnEncode [0xAB]) ∧
  decode [0x90, 0x02, 0x07, 0xF5, 0x0F, 0xFF] = .ok (.mnDecode [⟨false, 2037⟩, ⟨true, 2047⟩])

/-- R67 to R71: decoding the frame of a well-formed command gives the command back, every operand at every value. -/
def Obligations.DecodeInvertsEncode : Prop :=
  ∀ i : Instr, i.wellFormed = true → decode (encode i) = .ok i

/-- R71, R75: a frame has at most one meaning: whatever decodes is well formed, and the frame is that command's encoding. -/
def Obligations.DecodedFrameIsTheEncoding : Prop :=
  ∀ (f : List Byte) (i : Instr), decode f = .ok i → i.wellFormed = true ∧ encode i = f

/-- R75: the illegal frames are exactly those of the rule's list, and such a frame raises BadCommand and changes no other
element, unless an older fault refuses it. -/
def Obligations.IllegalFramesAreExactlyTheListed : Prop :=
  (∀ f : List Byte, (∃ e, decode f = .error e) ↔ IllegalByRule f) ∧
  (∀ (s : State) (f : List Byte) (rest : List HostEvent), s.inbox = .frame f :: rest → IllegalByRule f →
    s.fault = none →
    step s = .next { s with inbox := rest, fault := some .badCommand, outbox := s.outbox ++ [[0x86]] }) ∧
  (∀ (s : State) (f : List Byte) (rest : List HostEvent) (c : FaultCode), s.inbox = .frame f :: rest →
    IllegalByRule f → s.fault = some c →
    step s = .next { s with inbox := rest, outbox := s.outbox ++ [[0x80 ||| c.code.setWidth 8]] })

/-! ### The step, reset, errors and faults -/

/-- R53, R66: a step on a legal frame runs the decoded command on the state without the frame. -/
def Obligations.StepRunsTheDecodedCommand : Prop :=
  ∀ (s : State) (f : List Byte) (rest : List HostEvent) (i : Instr),
    s.inbox = .frame f :: rest → decode f = .ok i → step s = exec i { s with inbox := rest }

/-- The model's choice (log 3): the instruction placed by withFetchWord is the one the next step runs, on the state itself. -/
def Obligations.PlacedWordRunsNext : Prop :=
  ∀ (s : State) (nbits w : Nat) (i : Instr), decodeTableWord nbits w = some i →
    step (s.withFetchWord nbits w) = exec i s

/-- The model's choice (log 2): with no event waiting a step changes nothing. -/
def Obligations.StepWithoutEventChangesNothing : Prop :=
  ∀ s : State, s.inbox = [] → step s = .next s

/-- R30: the values after reset. -/
def Obligations.ResetLeavesTheListedValues : Prop :=
  State.reset.pk.phase = .idle ∧ State.reset.pk.phase.code = 0 ∧ State.reset.pk.wc = 0 ∧ State.reset.pk.cnt = 0 ∧
  State.reset.pk.len = 0 ∧ State.reset.pk.acc = 0 ∧ State.reset.pk.nacc = 0 ∧
  State.reset.up.phase = .unbound ∧ State.reset.up.phase.code = 0 ∧ State.reset.up.len = 0 ∧
  State.reset.up.pos = 0 ∧ State.reset.faultReg = 0

/-- R190: RST, between commands or during one, puts every element to its value of R30 and gives no response; nothing else
clears FAULT. -/
def Obligations.OnlyResetSignalClearsFault : Prop :=
  (∀ (s : State) (ev : HostEvent) (rest : List HostEvent), s.inbox = ev :: rest →
    (ev = .rst ∨ ∃ f, ev = .rstDuring f) →
    ∃ t, step s = .next t ∧ t.pk.phase = .idle ∧ t.pk.wc = 0 ∧ t.pk.cnt = 0 ∧ t.pk.len = 0 ∧ t.pk.acc = 0 ∧
      t.pk.nacc = 0 ∧ t.up.phase = .unbound ∧ t.up.len = 0 ∧ t.up.pos = 0 ∧ t.fault = none ∧
      t.inbox = rest ∧ t.outbox = s.outbox) ∧
  (∀ (s t : State) (c : FaultCode), s.fault = some c → step s = .next t → t.fault ≠ some c →
    ∃ ev rest, s.inbox = ev :: rest ∧ (ev = .rst ∨ ∃ f, ev = .rstDuring f))

/-- R191: after reset, which commands are accepted and which fault. -/
def Obligations.FirstCommandsAfterReset : Prop :=
  (∀ v, exec (.pkWrite11 v) State.reset = .next { State.reset with fault := some .pkProtocol, outbox := [[0x82]] }) ∧
  exec .pkFinish State.reset = .next { State.reset with fault := some .pkProtocol, outbox := [[0x82]] } ∧
  exec .pkTake State.reset = .next { State.reset with fault := some .pkProtocol, outbox := [[0x82]] } ∧
  exec .upRead11 State.reset = .next { State.reset with fault := some .upProtocol, outbox := [[0x84]] } ∧
  (∀ wc : BitVec 11, wc.toNat ≤ 24 → ∃ t, exec (.pkInit wc) State.reset = .next t ∧ t.outbox = [[0x00]]) ∧
  (∀ slice : List Byte, slice.length ≤ 2047 → ∃ t, exec (.upInit slice) State.reset = .next t ∧ t.outbox = [[0x00]]) ∧
  (∀ entropy, ∃ t, exec (.mnEncode entropy) State.reset = .next t ∧ t.fault = none) ∧
  (∀ tokens, ∃ t, exec (.mnDecode tokens) State.reset = .next t ∧ t.fault = none)

/-- R167: while FAULT is nonzero every frame, legal or not, is answered with it and changes nothing. -/
def Obligations.FaultedBlockRefusesEveryFrame : Prop :=
  ∀ (s : State) (c : FaultCode) (f : List Byte) (rest : List HostEvent),
    s.fault = some c → s.inbox = .frame f :: rest →
    step s = .next { s with inbox := rest, outbox := s.outbox ++ [[0x80 ||| c.code.setWidth 8]] }

/-- R166: a command that faults sets FAULT, answers with the fault's status alone, and changes no other element. -/
def Obligations.FaultEntryIsPrecise : Prop :=
  ∀ (s t : State) (f : List Byte) (rest : List HostEvent) (c : FaultCode),
    s.inbox = .frame f :: rest → s.fault = none → step s = .next t → t.fault = some c →
    t = { s with inbox := rest, fault := some c, outbox := s.outbox ++ [[0x80 ||| c.code.setWidth 8]] }

/-- R165: a command that answers an error changes no element. -/
def Obligations.ErrorEntryChangesNothing : Prop :=
  ∀ (s t : State) (f : List Byte) (rest : List HostEvent) (r : List Byte) (e : MnError),
    s.inbox = .frame f :: rest → step s = .next t → t.outbox = s.outbox ++ [r] → r.head? = some e.status →
    t = { s with inbox := rest, outbox := s.outbox ++ [[e.status]] }

/-- R161: which commands return which errors. -/
def Obligations.ErrorsComeFromTheCodecOnly : Prop :=
  ∀ (s t : State) (i : Instr) (r : List Byte) (e : MnError),
    exec i s = .next t → t.outbox = s.outbox ++ [r] → r.head? = some e.status →
    (∃ entropy, i = .mnEncode entropy ∧ e = .invalidEntropyLength) ∨
    (∃ tokens, i = .mnDecode tokens ∧
      (e = .invalidWordCount ∨ e = .unknownWord ∨ e = .checksumMismatch))

/-- R74, R72: a frame is answered by exactly one response frame, whose first byte is a status of the rule's list; in every
state that meets the invariant the answer is given. -/
def Obligations.EveryFrameGetsOneResponse : Prop :=
  (∀ (s t : State) (f : List Byte) (rest : List HostEvent), s.inbox = .frame f :: rest → step s = .next t →
    t.inbox = rest ∧ ∃ st payload, t.outbox = s.outbox ++ [st :: payload] ∧ st ∈ legalStatuses) ∧
  (∀ (s : State) (f : List Byte) (rest : List HostEvent), s.Inv → s.inbox = .frame f :: rest → ∃ t, step s = .next t)

/-- R164: the order of the checks, as far as two could fire at once. -/
def Obligations.ChecksRunInOrder : Prop :=
  (∀ (s : State) (v : Group), s.fault = none → s.pk.phase = .done → s.pk.cnt = s.pk.wc →
    exec (.pkWrite11 v) s = .next { s with fault := some .pkProtocol, outbox := s.outbox ++ [[0x82]] }) ∧
  (∀ s : State, s.fault = none → s.up.phase = .unbound → 8 * s.up.len.toNat < s.up.pos.toNat + 11 →
    exec .upRead11 s = .next { s with fault := some .upProtocol, outbox := s.outbox ++ [[0x84]] }) ∧
  (∀ (s : State) (i : Instr) (c : FaultCode), i.wellFormed = true → s.fault = some c →
    exec i s = .next { s with outbox := s.outbox ++ [[0x80 ||| c.code.setWidth 8]] })

/-! ### The invariant -/

/-- The state after reset meets the invariant. -/
def Obligations.ResetMeetsTheInvariant : Prop := State.reset.Inv

/-- R12 to R17, R20, R21, R96: every step, from every state that meets the invariant, keeps it. -/
def Obligations.StepKeepsTheInvariant : Prop :=
  ∀ s t : State, s.Inv → step s = .next t → t.Inv

/-- R96, R200: a state that meets the invariant always takes a next step: the model's own stops are out of reach. -/
def Obligations.InvariantStatesAlwaysStep : Prop :=
  ∀ s : State, s.Inv → ∃ t, step s = .next t

/-- R31: contents nothing has written are never observable: two states that differ in them at most take the same step, with
the same responses, to two such states. -/
def Obligations.UnwrittenBytesAreNeverObserved : Prop :=
  ∀ s s' t : State, SameButUnwritten s s' → step s = .next t → ∃ t', step s' = .next t' ∧ SameButUnwritten t t'

/-- R10 to R12, R20, R26: each element is written by its commands alone. -/
def Obligations.ElementsAreWrittenByTheirCommandsOnly : Prop :=
  ∀ (i : Instr) (s t : State), exec i s = .next t →
    (t.pk.phase ≠ s.pk.phase → (∃ wc, i = .pkInit wc ∧ t.pk.phase = .opened) ∨
      (i = .pkFinish ∧ s.pk.phase = .opened ∧ t.pk.phase = .done)) ∧
    (t.pk.wc ≠ s.pk.wc → ∃ wc, i = .pkInit wc) ∧
    (t.pk.cnt ≠ s.pk.cnt → (∃ wc, i = .pkInit wc) ∨ ∃ v, i = .pkWrite11 v) ∧
    (t.pk.buf ≠ s.pk.buf → (∃ v, i = .pkWrite11 v) ∨ i = .pkFinish) ∧
    ((t.pk.len ≠ s.pk.len ∨ t.pk.acc ≠ s.pk.acc ∨ t.pk.nacc ≠ s.pk.nacc) →
      (∃ wc, i = .pkInit wc) ∨ (∃ v, i = .pkWrite11 v) ∨ i = .pkFinish) ∧
    ((t.up.phase ≠ s.up.phase ∨ t.up.buf ≠ s.up.buf ∨ t.up.len ≠ s.up.len) → ∃ slice, i = .upInit slice) ∧
    (t.up.pos ≠ s.up.pos → (∃ slice, i = .upInit slice) ∨ i = .upRead11)

/-! ### BitPacker -/

/-- R90: PK.INIT, with its whole next state, and its fault. -/
def Obligations.PkInitConstructsThePacker : Prop :=
  ∀ (wc : BitVec 11) (s : State), s.fault = none →
    (wc.toNat ≤ 24 → exec (.pkInit wc) s = .next
      { s with
        pk := { s.pk with
          phase := .opened, wc := BitVec.ofNat 5 wc.toNat, cnt := 0, len := 0, acc := 0, nacc := 0 }
        outbox := s.outbox ++ [[0x00]] }) ∧
    (24 < wc.toNat → exec (.pkInit wc) s = .next
      { s with fault := some .pkCountTooLarge, outbox := s.outbox ++ [[0x81]] })

/-- R91: PK.WRITE11. With N = PK.NACC + 11 bits W = PK.ACC ‖ v in hand, the N div 8 whole bytes of W are pushed from its top
and the N mod 8 bits left are kept. -/
def Obligations.PkWrite11AppendsElevenBits : Prop :=
  ∀ (v : Group) (s : State), s.fault = none →
    (s.pk.phase = .opened → s.pk.cnt.toNat < s.pk.wc.toNat → s.pk.acc.toNat < 2 ^ s.pk.nacc.toNat →
      s.pk.len.toNat + (s.pk.nacc.toNat + 11) / 8 ≤ 34 →
      ∃ t, exec (.pkWrite11 v) s = .next t ∧
        t.pk.len.toNat = s.pk.len.toNat + (s.pk.nacc.toNat + 11) / 8 ∧
        t.pk.nacc.toNat = (s.pk.nacc.toNat + 11) % 8 ∧
        t.pk.acc.toNat = (s.pk.acc.toNat * 2048 + v.toNat) % 2 ^ ((s.pk.nacc.toNat + 11) % 8) ∧
        t.pk.cnt.toNat = s.pk.cnt.toNat + 1 ∧
        (∀ j, j < (s.pk.nacc.toNat + 11) / 8 → Memory.read t.pk.buf (s.pk.len.toNat + j) =
          some (BitVec.ofNat 8 ((s.pk.acc.toNat * 2048 + v.toNat) / 2 ^ (s.pk.nacc.toNat + 11 - 8 * (j + 1))))) ∧
        t.pk.phase = s.pk.phase ∧ t.pk.wc = s.pk.wc ∧ t.up = s.up ∧ t.fault = none ∧ t.inbox = s.inbox ∧
        t.outbox = s.outbox ++ [[0x00]]) ∧
    (s.pk.phase ≠ .opened → exec (.pkWrite11 v) s = .next
      { s with fault := some .pkProtocol, outbox := s.outbox ++ [[0x82]] }) ∧
    (s.pk.phase = .opened → s.pk.wc.toNat ≤ s.pk.cnt.toNat → exec (.pkWrite11 v) s = .next
      { s with fault := some .pkOverflow, outbox := s.outbox ++ [[0x83]] })

/-- R92: PK.FINISH pushes the residue left-aligned, if there is one, and closes the packer; out of phase it faults. -/
def Obligations.PkFinishFlushesLeftAligned : Prop :=
  ∀ s : State, s.fault = none →
    (s.pk.phase = .opened → s.pk.nacc.toNat = 0 → exec .pkFinish s = .next
      { s with pk := { s.pk with phase := .done }, outbox := s.outbox ++ [[0x00]] }) ∧
    (s.pk.phase = .opened → 0 < s.pk.nacc.toNat → s.pk.len.toNat < 34 →
      ∃ t, exec .pkFinish s = .next t ∧ t.pk.phase = .done ∧ t.pk.acc = 0 ∧ t.pk.nacc = 0 ∧
        t.pk.len.toNat = s.pk.len.toNat + 1 ∧
        Memory.read t.pk.buf s.pk.len.toNat = some (BitVec.ofNat 8 (s.pk.acc.toNat * 2 ^ (8 - s.pk.nacc.toNat))) ∧
        t.pk.wc = s.pk.wc ∧ t.pk.cnt = s.pk.cnt ∧ t.up = s.up ∧ t.fault = none ∧ t.inbox = s.inbox ∧
        t.outbox = s.outbox ++ [[0x00]]) ∧
    (s.pk.phase ≠ .opened → exec .pkFinish s = .next
      { s with fault := some .pkProtocol, outbox := s.outbox ++ [[0x82]] })

/-- R93: PK.TAKE answers PK.LEN and the PK.LEN bytes, and writes no state; out of phase it faults. -/
def Obligations.PkTakeAnswersTheBytes : Prop :=
  ∀ s : State, s.fault = none →
    (s.pk.phase = .done → s.pk.len.toNat ≤ 34 → exec .pkTake s = .next
      { s with outbox := s.outbox ++
          [0x00 :: s.pk.len.setWidth 8 :: (List.range s.pk.len.toNat).map s.pk.byteAt] }) ∧
    (s.pk.phase ≠ .done → exec .pkTake s = .next
      { s with fault := some .pkProtocol, outbox := s.outbox ++ [[0x82]] })

/-- R14, R26, R41: the frame of the packer's commands: which bytes of PK.BUF keep their contents (all but those stored from
PK.LEN on), and that the unpacker is untouched. -/
def Obligations.PackerCommandsFrame : Prop :=
  (∀ (wc : BitVec 11) (s t : State), exec (.pkInit wc) s = .next t →
    t.up = s.up ∧ t.inbox = s.inbox ∧ ∀ a, Memory.read t.pk.buf a = Memory.read s.pk.buf a) ∧
  (∀ (v : Group) (s t : State), exec (.pkWrite11 v) s = .next t →
    t.up = s.up ∧ t.inbox = s.inbox ∧ t.pk.phase = s.pk.phase ∧ t.pk.wc = s.pk.wc ∧
    ∀ a, (a < s.pk.len.toNat ∨ s.pk.len.toNat + (s.pk.nacc.toNat + 11) / 8 ≤ a) →
      Memory.read t.pk.buf a = Memory.read s.pk.buf a) ∧
  (∀ s t : State, exec .pkFinish s = .next t →
    t.up = s.up ∧ t.inbox = s.inbox ∧ t.pk.wc = s.pk.wc ∧ t.pk.cnt = s.pk.cnt ∧
    ∀ a, (a < s.pk.len.toNat ∨ s.pk.len.toNat + (if 0 < s.pk.nacc.toNat then 1 else 0) ≤ a) →
      Memory.read t.pk.buf a = Memory.read s.pk.buf a) ∧
  (∀ s t : State, exec .pkTake s = .next t → t.pk = s.pk ∧ t.up = s.up ∧ t.inbox = s.inbox)

/-- R95: the registers after the k-th accepted write, and after PK.FINISH, from any state that is not faulted. -/
def Obligations.RegistersAfterEachWrite : Prop :=
  ∀ (wc : BitVec 11) (vs : List Group) (s : State), s.fault = none → wc.toNat ≤ 24 → vs.length ≤ wc.toNat →
    (∃ t, CleanRun (.pkInit wc :: vs.map .pkWrite11) s t ∧
      t.pk.cnt.toNat = vs.length ∧ t.pk.len.toNat = 11 * vs.length / 8 ∧ t.pk.nacc.toNat = 11 * vs.length % 8) ∧
    (∃ t, CleanRun (.pkInit wc :: vs.map .pkWrite11 ++ [.pkFinish]) s t ∧
      t.pk.len.toNat = (11 * vs.length + 7) / 8)

/-- R18: between a PK.INIT and the next PK.FINISH, whatever other commands run in between, the packer's buffer and its residue
hold exactly the bits of the values accepted. -/
def Obligations.OpenPackerHoldsTheBitsWritten : Prop :=
  ∀ (wc : BitVec 11) (is : List Instr) (s t : State), (∀ i, i ∈ is → KeepsPackerOpen i) →
    CleanRun (.pkInit wc :: is) s t →
    t.pk.phase = .opened ∧ t.pk.cnt.toNat = (valuesWritten is).length ∧
    t.pk.len.toNat = 11 * (valuesWritten is).length / 8 ∧ t.pk.nacc.toNat = 11 * (valuesWritten is).length % 8 ∧
    (∀ i, i < 8 * t.pk.len.toNat → streamBit t.pk.byteAt i = (streamOf (valuesWritten is)).getD i false) ∧
    t.pk.acc.toNat = numberOf ((streamOf (valuesWritten is)).drop (8 * t.pk.len.toNat))

/-- R94: the register-level packer computes the concatenation of the 11-bit values accepted between a PK.INIT and the
PK.FINISH that follows, whatever other commands run in between, padded with zero bits; PK.TAKE answers it. -/
def Obligations.FinishedPackerHoldsTheBitStream : Prop :=
  ∀ (wc : BitVec 11) (is : List Instr) (s t : State), (∀ i, i ∈ is → KeepsPackerOpen i) →
    CleanRun (.pkInit wc :: is ++ [.pkFinish]) s t →
    ∃ R : List Byte, exec .pkTake t = .next { t with outbox := t.outbox ++ [0x00 :: BitVec.ofNat 8 R.length :: R] } ∧
      R.length = (11 * (valuesWritten is).length + 7) / 8 ∧
      (∀ i, i < 11 * (valuesWritten is).length → bitOf R i = (streamOf (valuesWritten is)).getD i false) ∧
      (∀ i, 11 * (valuesWritten is).length ≤ i → i < 8 * R.length → bitOf R i = false)

/-- R97, first half: unpacking the result of a packing job returns the values written, in order, without a fault. -/
def Obligations.UnpackingInvertsPacking : Prop :=
  ∀ (wc : BitVec 11) (vs : List Group) (s : State), s.fault = none → wc.toNat ≤ 24 → vs.length ≤ wc.toNat →
    ∃ t R u, execAll (packingJob wc vs) s = .next t ∧
      t.outbox.getLast? = some (0x00 :: BitVec.ofNat 8 R.length :: R) ∧
      execAll (unpackingJob R vs.length) t = .next u ∧ u.fault = none ∧
      u.outbox = t.outbox ++ [0x00] :: vs.map fun v => 0x00 :: be16Bytes (v.setWidth 16)

/-- R97, second half: packing the k groups read from a byte sequence gives its first ceil(11k/8) bytes, the bits from 11k on
set to zero. -/
def Obligations.PackingInvertsUnpacking : Prop :=
  ∀ (B : List Byte) (k : Nat) (s : State), s.fault = none → B.length ≤ 2047 → k ≤ 24 → 11 * k ≤ 8 * B.length →
    ∃ vs u t R, vs.length = k ∧ execAll (unpackingJob B k) s = .next u ∧
      u.outbox = s.outbox ++ [0x00] :: vs.map (fun v : Group => 0x00 :: be16Bytes (v.setWidth 16)) ∧
      execAll (packingJob (BitVec.ofNat 11 k) vs) u = .next t ∧
      t.outbox.getLast? = some (0x00 :: BitVec.ofNat 8 R.length :: R) ∧ R.length = (11 * k + 7) / 8 ∧
      (∀ i, i < 11 * k → bitOf R i = bitOf B i) ∧ (∀ i, 11 * k ≤ i → i < 8 * R.length → bitOf R i = false)

/-! ### BitUnpacker -/

/-- R110: UP.INIT binds the slice and rewinds. -/
def Obligations.UpInitBindsTheSlice : Prop :=
  ∀ (slice : List Byte) (s : State), s.fault = none → slice.length ≤ 2047 →
    ∃ t, exec (.upInit slice) s = .next t ∧ t.up.phase = .bound ∧ t.up.len.toNat = slice.length ∧ t.up.pos = 0 ∧
      (∀ k, k < slice.length → Memory.read t.up.buf k = slice[k]?) ∧
      t.pk = s.pk ∧ t.fault = none ∧ t.inbox = s.inbox ∧ t.outbox = s.outbox ++ [[0x00]]

/-- R111: UP.READ11 answers the 11 bits at the cursor and advances it by 11; unbound or too near the end it faults. -/
def Obligations.UpRead11AnswersTheNextGroup : Prop :=
  ∀ s : State, s.fault = none →
    (s.up.phase = .bound → s.up.pos.toNat + 11 ≤ 8 * s.up.len.toNat →
      exec .upRead11 s = .next
        { s with
          up := { s.up with pos := BitVec.ofNat 14 (s.up.pos.toNat + 11) }
          outbox := s.outbox ++ [[0x00, BitVec.ofNat 8 (groupSum s.up.byteAt s.up.pos.toNat / 256),
            BitVec.ofNat 8 (groupSum s.up.byteAt s.up.pos.toNat % 256)]] }) ∧
    (s.up.phase = .unbound → exec .upRead11 s = .next
      { s with fault := some .upProtocol, outbox := s.outbox ++ [[0x84]] }) ∧
    (s.up.phase = .bound → 8 * s.up.len.toNat < s.up.pos.toNat + 11 → exec .upRead11 s = .next
      { s with fault := some .upReadPastEnd, outbox := s.outbox ++ [[0x85]] })

/-- R20, R26: the frame of the unpacker's commands. -/
def Obligations.UnpackerCommandsFrame : Prop :=
  (∀ (slice : List Byte) (s t : State), exec (.upInit slice) s = .next t →
    t.pk = s.pk ∧ t.inbox = s.inbox ∧
    ∀ a, slice.length ≤ a → Memory.read t.up.buf a = Memory.read s.up.buf a) ∧
  (∀ s t : State, exec .upRead11 s = .next t →
    t.pk = s.pk ∧ t.inbox = s.inbox ∧ t.up.phase = s.up.phase ∧ t.up.len = s.up.len ∧
    ∀ a, Memory.read t.up.buf a = Memory.read s.up.buf a)

/-- R77, R112: the window of two or three bytes and the bit-by-bit reading give the same group, at every position. -/
def Obligations.WindowFormAgreesWithBitForm : Prop :=
  ∀ (bytes : Nat → Byte) (p : Nat), windowGroup bytes p = groupAt bytes p

/-- R46, R113: a read touches bytes b and b+1, and b+2 only when the offset is 6 or 7. -/
def Obligations.ReadTouchesTwoOrThreeBytes : Prop :=
  ∀ (f g : Nat → Byte) (p : Nat), f (p / 8) = g (p / 8) → f (p / 8 + 1) = g (p / 8 + 1) →
    (6 ≤ p % 8 → f (p / 8 + 2) = g (p / 8 + 2)) → groupAt f p = groupAt g p

/-- R114: after UP.INIT exactly (8 * UP.LEN) div 11 reads succeed and the next one faults. -/
def Obligations.ExactNumberOfReads : Prop :=
  (∀ (slice : List Byte) (s : State), s.fault = none → slice.length ≤ 2047 →
    (∃ t, CleanRun (unpackingJob slice (8 * slice.length / 11)) s t ∧
      t.up.pos.toNat = 11 * (8 * slice.length / 11)) ∧
    (∃ u, execAll (unpackingJob slice (8 * slice.length / 11 + 1)) s = .next u ∧ u.fault = some .upReadPastEnd ∧
      u.outbox.getLast? = some [0x85] ∧ u.up.pos.toNat = 11 * (8 * slice.length / 11))) ∧
  (∀ l, l ∈ Config.entLens → 8 * (l + 1) / 11 = fvWords l)

/-! ### Frame validator -/

/-- R120: the passing set of the entropy-length check is ENT_LENS; every other length fails with its error. -/
def Obligations.EntropyLengthCheckPassesExactlyEntLens : Prop :=
  ∀ l : Nat, (l ∈ Config.entLens → fvElen l = .ok ()) ∧
    (l ∉ Config.entLens → fvElen l = .error (.fail .invalidEntropyLength))

/-- R121: the passing set of the word-count check is WORD_COUNTS; every other count fails with its error. -/
def Obligations.WordCountCheckPassesExactlyWordCounts : Prop :=
  ∀ n : Nat, (n ∈ Config.wordCounts → fvWcnt n = .ok ()) ∧
    (n ∉ Config.wordCounts → fvWcnt n = .error (.fail .invalidWordCount))

/-- R5, R123, R124: the correspondence of entropy length, word count and checksum bits. -/
def Obligations.FrameParametersCorrespond : Prop :=
  ∀ l, l ∈ Config.entLens → fvWords l ∈ Config.wordCounts ∧ 4 * fvWords l = 3 * l ∧
    11 * fvWords l = 8 * l + l / 4 ∧ fvCsbits (fvWords l) = l / 4 ∧ 3 * fvCsbits (fvWords l) = fvWords l ∧ 4 * fvWords l / 3 = l

/-- R122, the equivalent statement: the check passes if and only if the low c bits of the last index equal the top c bits of
H1 of the entropy, whatever the hash is. -/
def Obligations.ChecksumPassesIffLastIndexAgrees : Prop :=
  ∀ (h1 : List Byte → Byte) (vs : List Group) (v : Group) (A : List Byte), vs.length + 1 ∈ Config.wordCounts →
    packIndices .high (vs ++ [v]) = .ok A →
    (fvCsum .high h1 A (vs.length + 1) = .ok () ↔
      v.toNat % 2 ^ ((vs.length + 1) / 3) = (h1 (A.take (4 * (vs.length + 1) / 3))).toNat / 2 ^ (8 - (vs.length + 1) / 3))

/-- spec/90_conflicts.md C1, R122, U1: decoding gives the same result under both readings of PK_FINAL_ALIGN. -/
def Obligations.VerdictIsTheSameUnderBothAlignments : Prop :=
  ∀ (h1 : List Byte → Byte) (tokens : List Token), codecDecode .low h1 tokens = codecDecode .high h1 tokens

/-! ### Codec -/

/-- R130: MN.ENCODE answers the groups of entropy ‖ H1(entropy), and writes no state. -/
def Obligations.MnEncodeAnswersTheGroups : Prop :=
  ∀ (E : List Byte) (s : State), s.fault = none →
    (E.length ∈ Config.entLens → exec (.mnEncode E) s = .next
      { s with outbox := s.outbox ++ [0x00 :: BitVec.ofNat 8 (E.length * 3 / 4) ::
          (List.range (E.length * 3 / 4)).flatMap fun k =>
            be16Bytes (BitVec.ofNat 16 (groupSum (byteOf (E ++ [Sha256.h1 E])) (11 * k)))] }) ∧
    (E.length ∉ Config.entLens → exec (.mnEncode E) s = .next { s with outbox := s.outbox ++ [[0x01]] })

/-- R131, R135, R138: the codec's commands never fault, read no state but FAULT and write none. -/
def Obligations.CodecCommandsArePureAndNeverFault : Prop :=
  (∀ E : List Byte, ∃ st payload, st.toNat < 0x80 ∧ ∀ s : State, s.fault = none →
    exec (.mnEncode E) s = .next { s with outbox := s.outbox ++ [st :: payload] }) ∧
  (∀ ts : List Token, ∃ st payload, st.toNat < 0x80 ∧ ∀ s : State, s.fault = none →
    exec (.mnDecode ts) s = .next { s with outbox := s.outbox ++ [st :: payload] })

/-- R132 (b), C4: encoding is injective on accepted entropies, whatever the hash is. -/
def Obligations.EncodingIsInjectiveForEveryHash : Prop :=
  ∀ (h1 : List Byte → Byte) (E1 E2 : List Byte) (g : List Group),
    codecEncode h1 E1 = .ok g → codecEncode h1 E2 = .ok g → E1 = E2

/-- R62, U8: the low 8 - c bits of the checksum byte have no effect on any output. -/
def Obligations.LowChecksumBitsAreNeverRead : Prop :=
  ∀ (h h' : List Byte → Byte) (E : List Byte), E.length ∈ Config.entLens →
    (h E).toNat / 2 ^ (8 - E.length / 4) = (h' E).toNat / 2 ^ (8 - E.length / 4) →
    codecEncode h E = codecEncode h' E

/-- R61: the last group is the last 11 - c entropy bits followed by the top c bits of the hash byte. -/
def Obligations.LastGroupCarriesTheChecksum : Prop :=
  ∀ (h1 : List Byte → Byte) (E : List Byte) (g : List Group), codecEncode h1 E = .ok g →
    g.length = E.length * 3 / 4 ∧ ∃ v, g.getLast? = some v ∧
      v.toNat = numberOf ((List.range (11 - E.length / 4)).map
          (fun j => bitOf E (8 * E.length - (11 - E.length / 4) + j))) * 2 ^ (E.length / 4) +
        (h1 E).toNat / 2 ^ (8 - E.length / 4)

/-- R133, R134: MN.DECODE's four outcomes in their order, each with its whole next state. -/
def Obligations.MnDecodeValidatesAndRecovers : Prop :=
  ∀ (ts : List Token) (s : State), s.fault = none →
    (ts.length ∉ Config.wordCounts → exec (.mnDecode ts) s = .next { s with outbox := s.outbox ++ [[0x02]] }) ∧
    (ts.length ∈ Config.wordCounts → (∃ t, t ∈ ts ∧ t.miss = true) →
      exec (.mnDecode ts) s = .next { s with outbox := s.outbox ++ [[0x03]] }) ∧
    (ts.length ∈ Config.wordCounts → (∀ t, t ∈ ts → t.miss = false) →
      ∀ E : List Byte, E = (List.range (4 * ts.length / 3)).map (byteOfStream (streamOf (ts.map Token.idx))) →
        (numberOf ((streamOf (ts.map Token.idx)).drop (8 * (4 * ts.length / 3))) =
            (Sha256.h1 E).toNat / 2 ^ (8 - ts.length / 3) →
          exec (.mnDecode ts) s = .next
            { s with outbox := s.outbox ++ [0x00 :: BitVec.ofNat 8 ts.length ::
                (ts.flatMap fun t => be16Bytes (t.idx.setWidth 16)) ++ BitVec.ofNat 8 (4 * ts.length / 3) :: E] }) ∧
        (numberOf ((streamOf (ts.map Token.idx)).drop (8 * (4 * ts.length / 3))) ≠
            (Sha256.h1 E).toNat / 2 ^ (8 - ts.length / 3) →
          exec (.mnDecode ts) s = .next { s with outbox := s.outbox ++ [[0x04]] }))

/-- R136: decoding what encoding answered succeeds with the same indices and the entropy; and encoding what decoding
recovered answers the same indices. -/
def Obligations.EncodeAndDecodeRoundTrip : Prop :=
  (∀ (E : List Byte) (s : State), s.fault = none → E.length ∈ Config.entLens →
    ∃ g, exec (.mnEncode E) s = .next { s with outbox := s.outbox ++ [(Response.indices g).bytes] } ∧
      exec (.mnDecode (hits g)) s = .next { s with outbox := s.outbox ++ [(Response.recovered g E).bytes] }) ∧
  (∀ (g : List Group) (E : List Byte) (s : State), s.fault = none →
    exec (.mnDecode (hits g)) s = .next { s with outbox := s.outbox ++ [(Response.recovered g E).bytes] } →
    exec (.mnEncode E) s = .next { s with outbox := s.outbox ++ [(Response.indices g).bytes] })

/-- R137: a single-word change is no guarantee of failure: two accepted frames that differ in one word (T21, T31). -/
def Obligations.SingleWordChangeMayStillPass : Prop :=
  ∃ a b : Response,
    exec (.mnDecode (hits (List.replicate 11 0 ++ [3]))) State.reset =
      .next { State.reset with outbox := [a.bytes] } ∧
    exec (.mnDecode (hits (List.replicate 11 0 ++ [23]))) State.reset =
      .next { State.reset with outbox := [b.bytes] } ∧
    a = .recovered (List.replicate 11 0 ++ [3]) (List.replicate 16 0x00) ∧
    b = .recovered (List.replicate 11 0 ++ [23]) (List.replicate 15 0x00 ++ [0x01])

/-- V1, V2 of spec/95_test_vectors.md (the source's own two vectors), as indices (R130) and as text over every dictionary with
R28's pinned entries (R140, R143): eleven times "abandon" and "about", eleven times "zoo" and "wrong". -/
def Obligations.KnownVectorsComeOut : Prop :=
  exec (.mnEncode (List.replicate 16 0x00)) State.reset =
    .next { State.reset with outbox := [(Response.indices (List.replicate 11 0 ++ [3])).bytes] } ∧
  exec (.mnEncode (List.replicate 16 0xFF)) State.reset =
    .next { State.reset with outbox := [(Response.indices (List.replicate 11 2047 ++ [2037])).bytes] } ∧
  ∀ dict : Dictionary, dict.Pinned →
    (mnToText dict (List.replicate 16 0x00) State.reset).2 = .text (joinWords
      (List.replicate 11 [0x61, 0x62, 0x61, 0x6e, 0x64, 0x6f, 0x6e] ++ [[0x61, 0x62, 0x6f, 0x75, 0x74]])) ∧
    (mnToText dict (List.replicate 16 0xFF) State.reset).2 = .text (joinWords
      (List.replicate 11 [0x7a, 0x6f, 0x6f] ++ [[0x77, 0x72, 0x6f, 0x6e, 0x67]]))

/-! ### Instances and the host's text -/

/-- R32, R55, R176: a step of one instance leaves every other as it was, and steps of two instances commute. -/
def Obligations.InstancesDoNotInterfere : Prop :=
  (∀ (k j : Nat) (sys : System), j ≠ k → (systemStep k sys)[j]? = sys[j]?) ∧
  (∀ (k j : Nat) (sys : System), j ≠ k → systemStep k (systemStep j sys) = systemStep j (systemStep k sys))

/-- R141: parsing what FORMAT wrote gives the words back. -/
def Obligations.ParseInvertsFormat : Prop :=
  ∀ (dict : Dictionary) (g : List Group), dict.Contract → g ≠ [] → parseWords (formatWords dict g) = g.map dict

/-- R141: every string has one word more than it has spaces, and joining its words gives it back. -/
def Obligations.ParseSplitsAtEverySpace : Prop :=
  ∀ str : Text, (parseWords str).length = str.count space + 1 ∧ joinWords (parseWords str) = str ∧
    ∀ w, w ∈ parseWords str → space ∉ w

/-- R142: LOOKUP's result, and that the document's binary search gives the same one. -/
def Obligations.LookupFindsTheUniqueIndex : Prop :=
  ∀ dict : Dictionary, dict.Contract →
    (∀ i : Group, lookup dict (dict i) = ⟨false, i⟩) ∧
    (∀ w : Text, (∀ i, dict i ≠ w) → (lookup dict w).miss = true) ∧
    (lookup dict []).miss = true ∧
    (∀ w : Text, tokenOf (binarySearch dict w 11 0) = lookup dict w)

/-- R143: MN.FROMTEXT of what MN.TOTEXT gave succeeds with the same words and the entropy. -/
def Obligations.TextRoundTrip : Prop :=
  ∀ (dict : Dictionary) (E : List Byte) (s : State), dict.Contract → s.fault = none → E.length ∈ Config.entLens →
    ∃ t str u, mnToText dict E s = (t, .text str) ∧ mnFromText dict str t = (u, .words (parseWords str) E) ∧
      u.pk = s.pk ∧ u.up = s.up ∧ u.fault = none
end

