-- ==== Sys2Proof/Laws/Memory.lean ====
section
/-! SUPPORT. The laws of a buffer: a read after a write, the canonical form, and the size. -/

namespace Sys2Proof.Machine.Memory

@[simp] theorem read_nil (i : Nat) : Memory.read [] i = none := rfl

/-- A write answers the read of its index and leaves every other index alone, in any list of cells. -/
theorem read_write (m : Memory) (i j : Nat) (v : Byte) :
    Memory.read (Memory.write m i v) j = if i = j then some v else Memory.read m j := by
  induction m with
  | nil => simp [Memory.write, Memory.read]
  | cons c rest ih =>
    obtain ⟨k, b⟩ := c
    simp only [Memory.write]
    split
    · simp [Memory.read]
    · split
      · subst_vars; by_cases h : k = j <;> simp [Memory.read, h]
      · by_cases hk : k = j
        · have : ¬ i = j := by omega
          simp [Memory.read, hk, this]
        · simp [Memory.read, hk, ih]

@[simp] theorem read_write_same (m : Memory) (i : Nat) (v : Byte) :
    Memory.read (Memory.write m i v) i = some v := by simp [read_write]

theorem read_write_other (m : Memory) {i j : Nat} (v : Byte) (h : i ≠ j) :
    Memory.read (Memory.write m i v) j = Memory.read m j := by simp [read_write, h]

/-- A block write answers the bytes of the block and leaves every index outside it alone. -/
theorem read_writeAll (bs : List Byte) (m : Memory) (i j : Nat) :
    Memory.read (Memory.writeAll m i bs) j =
      if i ≤ j ∧ j < i + bs.length then some (bs.getD (j - i) 0#8) else Memory.read m j := by
  induction bs generalizing i with
  | nil =>
    have : ¬ (i ≤ j ∧ j < i + ([] : List Byte).length) := by simp
    rw [if_neg this]; rfl
  | cons b bs ih =>
    simp only [Memory.writeAll, read_write, ih, List.length_cons]
    by_cases hij : i = j
    · subst hij; simp
    · by_cases hlt : i + 1 ≤ j ∧ j < i + 1 + bs.length
      · have h2 : i ≤ j ∧ j < i + (bs.length + 1) := by omega
        have h3 : j - i = (j - (i + 1)) + 1 := by omega
        simp [hij, hlt, h2, h3]
      · have h2 : ¬ (i ≤ j ∧ j < i + (bs.length + 1)) := by omega
        rw [if_neg hij, if_neg hlt, if_neg h2]

theorem risesFrom_write {lo : Nat} {m : Memory} (i : Nat) (v : Byte)
    (h : Memory.risesFrom lo m = true) (hi : lo ≤ i) : Memory.risesFrom lo (Memory.write m i v) = true := by
  induction m generalizing lo with
  | nil => simpa [Memory.write, Memory.risesFrom] using hi
  | cons c rest ih =>
    obtain ⟨k, b⟩ := c
    simp only [Memory.risesFrom, Bool.and_eq_true, decide_eq_true_eq] at h
    simp only [Memory.write]
    split
    · simp only [Memory.risesFrom, Bool.and_eq_true, decide_eq_true_eq]
      exact ⟨hi, by omega, h.2⟩
    · split
      · subst_vars; simpa [Memory.risesFrom, hi] using h.2
      · simp only [Memory.risesFrom, Bool.and_eq_true, decide_eq_true_eq]
        exact ⟨h.1, ih h.2 (by omega)⟩

/-- Every write keeps the canonical form. -/
theorem wf_write {m : Memory} (i : Nat) (v : Byte) (h : Memory.wf m = true) :
    Memory.wf (Memory.write m i v) = true := risesFrom_write i v h (Nat.zero_le i)

/-- Every block write keeps the canonical form. -/
theorem wf_writeAll {m : Memory} (i : Nat) (bs : List Byte) (h : Memory.wf m = true) :
    Memory.wf (Memory.writeAll m i bs) = true := by
  induction bs generalizing i with
  | nil => exact h
  | cons b bs ih => exact wf_write i b (ih (i + 1))

theorem below_write {size : Nat} {m : Memory} {i : Nat} (v : Byte)
    (h : Memory.below size m = true) (hi : i < size) : Memory.below size (Memory.write m i v) = true := by
  induction m with
  | nil => simpa [Memory.write, Memory.below] using hi
  | cons c rest ih =>
    obtain ⟨k, b⟩ := c
    simp only [Memory.below, List.all_cons, Bool.and_eq_true, decide_eq_true_eq] at h ih ⊢
    simp only [Memory.write]
    split
    · simp [hi, h.1]; simpa using h.2
    · split
      · simp [hi]; simpa using h.2
      · simp only [List.all_cons, Bool.and_eq_true, decide_eq_true_eq]
        exact ⟨h.1, ih h.2⟩

theorem below_writeAll {size : Nat} {m : Memory} (i : Nat) (bs : List Byte)
    (h : Memory.below size m = true) (hi : i + bs.length ≤ size) :
    Memory.below size (Memory.writeAll m i bs) = true := by
  induction bs generalizing i with
  | nil => exact h
  | cons b bs ih =>
    simp only [List.length_cons] at hi
    exact below_write b (ih (i + 1) (by omega)) (by omega)

/-- In the canonical form equal contents are equal data: two buffers that read alike everywhere are the same list. -/
theorem read_lt_none {lo : Nat} {m : Memory} (h : Memory.risesFrom lo m = true) {i : Nat} (hi : i < lo) :
    Memory.read m i = none := by
  induction m generalizing lo with
  | nil => rfl
  | cons c rest ih =>
    obtain ⟨k, b⟩ := c
    simp only [Memory.risesFrom, Bool.and_eq_true, decide_eq_true_eq] at h
    have : ¬ k = i := by omega
    simp [Memory.read, this, ih h.2 (by omega)]

theorem wf_reset_packer : Memory.wf Packer.reset.buf = true := rfl
theorem wf_reset_unpacker : Memory.wf Unpacker.reset.buf = true := rfl

end Sys2Proof.Machine.Memory
end

