-- ==== Sys2Proof/Laws/State.lean ====
section
/-! SUPPORT. One lemma per field per shared update of State, each true by unfolding. -/

namespace Sys2Proof.Machine

section
variable (r : Response) (s : State)
@[simp] theorem respond_pk : (respond r s).pk = s.pk := rfl
@[simp] theorem respond_up : (respond r s).up = s.up := rfl
@[simp] theorem respond_fault : (respond r s).fault = s.fault := rfl
@[simp] theorem respond_inbox : (respond r s).inbox = s.inbox := rfl
@[simp] theorem respond_outbox : (respond r s).outbox = s.outbox ++ [r.bytes] := rfl
end

section
variable (c : FaultCode) (s : State)
@[simp] theorem raiseFault_pk : (raiseFault c s).pk = s.pk := rfl
@[simp] theorem raiseFault_up : (raiseFault c s).up = s.up := rfl
@[simp] theorem raiseFault_fault : (raiseFault c s).fault = some c := rfl
@[simp] theorem raiseFault_inbox : (raiseFault c s).inbox = s.inbox := rfl
@[simp] theorem raiseFault_outbox : (raiseFault c s).outbox = s.outbox ++ [[c.status]] := rfl
end

section
variable (s : State)
@[simp] theorem rst_pk : (rst s).pk = Packer.reset := rfl
@[simp] theorem rst_up : (rst s).up = Unpacker.reset := rfl
@[simp] theorem rst_fault : (rst s).fault = none := rfl
@[simp] theorem rst_inbox : (rst s).inbox = s.inbox := rfl
@[simp] theorem rst_outbox : (rst s).outbox = s.outbox := rfl
end

section
variable (f : List Byte) (s : State)
@[simp] theorem placeFrame_pk : (placeFrame f s).pk = s.pk := rfl
@[simp] theorem placeFrame_up : (placeFrame f s).up = s.up := rfl
@[simp] theorem placeFrame_fault : (placeFrame f s).fault = s.fault := rfl
@[simp] theorem placeFrame_inbox : (placeFrame f s).inbox = .frame f :: s.inbox := rfl
@[simp] theorem placeFrame_outbox : (placeFrame f s).outbox = s.outbox := rfl
end

section
variable (e : MnError) (c : FaultCode)
@[simp] theorem bytes_done : Response.bytes .done = [0x00#8] := rfl
@[simp] theorem bytes_error : Response.bytes (.error e) = [e.status] := rfl
@[simp] theorem bytes_fault : Response.bytes (.fault c) = [c.status] := rfl
end

end Sys2Proof.Machine
end

