-- ==== Sys2Proof/Laws/Ops.lean ====
section
/-! SUPPORT. One lemma per shared operation: everything it can do. -/

namespace Sys2Proof.Machine

theorem unlessFaulted_ready {s : State} (h : s.fault = none) (o : Host.Outcome State Fault Refusal) :
    unlessFaulted s o = o := by simp [unlessFaulted, h]

theorem unlessFaulted_faulted {s : State} {c : FaultCode} (h : s.fault = some c)
    (o : Host.Outcome State Fault Refusal) : unlessFaulted s o = .next (respond (.fault c) s) := by
  simp [unlessFaulted, h]

/-- The four ways a command gives a next state: refused by an older fault, completed, failed, faulted. -/
theorem command_cases {s t : State} {op : Except Stop (State × Response)} (h : command s op = .next t) :
    (∃ c, s.fault = some c ∧ t = respond (.fault c) s) ∨
    (s.fault = none ∧ ∃ u r, op = .ok (u, r) ∧ t = respond r u) ∨
    (s.fault = none ∧ ∃ e, op = .error (.fail e) ∧ t = respond (.error e) s) ∨
    (s.fault = none ∧ ∃ c, op = .error (.raise c) ∧ t = raiseFault c s) := by
  cases hf : s.fault with
  | some c =>
    rw [command, unlessFaulted_faulted hf] at h
    exact .inl ⟨c, rfl, by simpa using h.symm⟩
  | none =>
    rw [command, unlessFaulted_ready hf] at h
    cases op with
    | ok x => exact .inr (.inl ⟨rfl, x.1, x.2, rfl, by simpa [conclude] using h.symm⟩)
    | error e =>
      cases e with
      | fail e => exact .inr (.inr (.inl ⟨rfl, e, rfl, by simpa [conclude] using h.symm⟩))
      | raise c => exact .inr (.inr (.inr ⟨rfl, c, rfl, by simpa [conclude] using h.symm⟩))
      | outside i => simp [conclude] at h

/-- A push appends one byte at PK.LEN and changes nothing else, or there is no room. -/
theorem push_ok_iff {b : Byte} {p q : Packer} :
    push b p = .ok q ↔ p.len.toNat < Config.pkBufBytes ∧
      q = { p with buf := Memory.write p.buf p.len.toNat b, len := p.len + 1 } := by
  unfold push
  split <;> rename_i h
  · simp only [Except.ok.injEq, h, true_and]
    exact eq_comm
  · simp [h]

/-- A step with no event waiting. -/
theorem step_idle {s : State} (h : s.inbox = []) : step s = .next s := by
  simp [step, takeEvent, h]

/-- A step on an illegal frame. -/
theorem step_illegal {s : State} {f : List Byte} {rest : List HostEvent} {e : IllegalFrame}
    (h : s.inbox = .frame f :: rest) (hd : decode f = .error e) :
    step s = illegalCommand { s with inbox := rest } := by
  simp [step, takeEvent, h, hd]

/-- A completed read answers the group at the cursor and moves the cursor by 11, nothing else. -/
theorem unpackerRead11_ok_iff {u u' : Unpacker} {v : Group} :
    unpackerRead11 u = .ok (v, u') ↔ u.phase = .bound ∧ u.pos.toNat + 11 ≤ 8 * u.len.toNat ∧
      v = groupAt u.byteAt u.pos.toNat ∧ u' = { u with pos := u.pos + 11#14 } := by
  unfold unpackerRead11
  by_cases h1 : u.phase = .bound <;> by_cases h2 : u.pos.toNat + 11 ≤ 8 * u.len.toNat <;>
    simp [h1, h2, eq_comm, and_comm]

/-- A completed construction leaves the registers of R90 and the buffer as it was. -/
theorem packerInit_ok_iff {wc : BitVec 11} {p q : Packer} :
    packerInit wc p = .ok q ↔ wc.toNat ≤ Config.pkMaxWc ∧
      q = { p with phase := .opened, wc := BitVec.ofNat 5 wc.toNat, cnt := 0#5, len := 0#6, acc := 0#7, nacc := 0#3 } := by
  unfold packerInit
  split <;> rename_i h <;> simp [h, eq_comm]

/-- A completed read of the result. -/
theorem packerTake_ok_iff {p : Packer} {bs : List Byte} :
    packerTake p = .ok bs ↔ p.phase = .done ∧ p.len.toNat ≤ Config.pkBufBytes ∧ bs = p.result := by
  unfold packerTake
  by_cases h1 : p.phase = .done <;> by_cases h2 : p.len.toNat ≤ Config.pkBufBytes <;> simp [h1, h2, eq_comm]

@[simp] theorem be16Bytes_length (x : Word16) : (be16Bytes x).length = 2 := rfl

@[simp] theorem indexBytes_length (v : Group) : (indexBytes v).length = 2 := rfl

@[simp] theorem indicesBytes_length (g : List Group) : (indicesBytes g).length = 2 * g.length := by
  induction g with
  | nil => rfl
  | cons v vs ih => simp [indicesBytes, ih]; omega

end Sys2Proof.Machine
end

