-- ==== Sys2Proof/Laws/Packer.lean ====
section
/-! SUPPORT. What each step of a write, a write and a finish answer when they complete, in one lemma each. -/

namespace Sys2Proof.Machine

/-- A packer with one byte more. -/
def Packer.pushed (p : Packer) (b : Byte) : Packer :=
  { p with buf := Memory.write p.buf p.len.toNat b, len := p.len + 1 }

section
variable (p : Packer) (b : Byte)
@[simp] theorem pushed_phase : (p.pushed b).phase = p.phase := rfl
@[simp] theorem pushed_wc : (p.pushed b).wc = p.wc := rfl
@[simp] theorem pushed_cnt : (p.pushed b).cnt = p.cnt := rfl
@[simp] theorem pushed_acc : (p.pushed b).acc = p.acc := rfl
@[simp] theorem pushed_nacc : (p.pushed b).nacc = p.nacc := rfl
@[simp] theorem pushed_buf : (p.pushed b).buf = Memory.write p.buf p.len.toNat b := rfl
theorem pushed_len (h : p.len.toNat < Config.pkBufBytes) : (p.pushed b).len.toNat = p.len.toNat + 1 := by
  have h' : p.len.toNat < 34 := h
  simp only [Packer.pushed, BitVec.toNat_add]
  exact Nat.mod_eq_of_lt (by simpa using (by omega : p.len.toNat + 1 < 64))
end

theorem push_ok_iff_pushed {b : Byte} {p q : Packer} :
    push b p = .ok q ↔ p.len.toNat < Config.pkBufBytes ∧ q = p.pushed b := push_ok_iff

/-- Step A: nothing without a residue, else one byte and an empty residue. -/
theorem fillPartial_ok_iff {v : Group} {p q : Packer} {rem : Nat} :
    fillPartial v p = .ok (q, rem) ↔
      (p.nacc.toNat = 0 ∧ q = p ∧ rem = 11) ∨
      (0 < p.nacc.toNat ∧ p.len.toNat < Config.pkBufBytes ∧ rem = 11 - (8 - p.nacc.toNat) ∧
        q = { p.pushed (partialByte v p) with acc := 0#7, nacc := 0#3 }) := by
  unfold fillPartial
  by_cases h : 0 < p.nacc.toNat
  · have h' : p.nacc.toNat ≠ 0 := by omega
    simp only [h, if_true, h', false_and, false_or, true_and]
    by_cases hl : p.len.toNat < Config.pkBufBytes
    · rw [push_ok_iff_pushed.2 ⟨hl, rfl⟩]
      simp only [Except.ok.injEq, Prod.mk.injEq, hl, true_and]
      constructor
      · rintro ⟨rfl, rfl⟩; exact ⟨rfl, rfl⟩
      · rintro ⟨rfl, rfl⟩; exact ⟨rfl, rfl⟩
    · simp [push, hl]
  · have h' : p.nacc.toNat = 0 := by omega
    simp [h', eq_comm]

/-- Step B: nothing below eight bits, else one byte. -/
theorem wholeBytes_ok_iff {v : Group} {p q : Packer} {rem rem' : Nat} :
    wholeBytes v p rem = .ok (q, rem') ↔
      (rem < 8 ∧ q = p ∧ rem' = rem) ∨
      (8 ≤ rem ∧ p.len.toNat < Config.pkBufBytes ∧ rem' = rem - 8 ∧
        q = p.pushed (BitVec.ofNat 8 (v.toNat >>> (rem - 8)))) := by
  unfold wholeBytes
  by_cases h : 8 ≤ rem
  · have h' : ¬ rem < 8 := by omega
    simp only [h, if_true, h', false_and, false_or, true_and]
    by_cases hl : p.len.toNat < Config.pkBufBytes
    · rw [push_ok_iff_pushed.2 ⟨hl, rfl⟩]
      simp only [Except.ok.injEq, Prod.mk.injEq, hl, true_and]
      constructor
      · rintro ⟨rfl, rfl⟩; exact ⟨rfl, rfl⟩
      · rintro ⟨rfl, rfl⟩; exact ⟨rfl, rfl⟩
    · simp [push, hl]
  · have h' : rem < 8 := by omega
    simp [h, h', eq_comm]

/-- A write after its checks: the three steps in a row, and the count. -/
theorem append11_ok_iff {v : Group} {p q : Packer} :
    append11 v p = .ok q ↔ ∃ p1 r1 p2 r2, fillPartial v p = .ok (p1, r1) ∧ wholeBytes v p1 r1 = .ok (p2, r2) ∧
      q = { keepRemainder v p2 r2 with cnt := (keepRemainder v p2 r2).cnt + 1 } := by
  unfold append11
  cases h1 : fillPartial v p with
  | error e => simp
  | ok x =>
    obtain ⟨p1, r1⟩ := x
    cases h2 : wholeBytes v p1 r1 with
    | error e => simp [h2]
    | ok y =>
      obtain ⟨p2, r2⟩ := y
      simp only [h2, Except.ok.injEq]
      constructor
      · rintro rfl; exact ⟨p1, r1, p2, r2, rfl, h2, rfl⟩
      · rintro ⟨a, b, c, d, hab, hcd, rfl⟩
        obtain ⟨rfl, rfl⟩ := Prod.mk.inj hab
        rw [h2] at hcd
        obtain ⟨rfl, rfl⟩ := Prod.mk.inj (Except.ok.inj hcd)
        rfl

/-- A completed PK.WRITE11 passed both checks. -/
theorem packerWrite11_ok_iff {v : Group} {p q : Packer} :
    packerWrite11 v p = .ok q ↔ p.phase = .opened ∧ p.cnt.toNat < p.wc.toNat ∧ append11 v p = .ok q := by
  unfold packerWrite11
  by_cases h1 : p.phase = .opened <;> by_cases h2 : p.cnt.toNat < p.wc.toNat <;> simp [h1, h2]

/-- A completed PK.FINISH: nothing pushed without a residue, else its byte. -/
theorem packerFinish_ok_iff {align : Config.FinalAlign} {p q : Packer} :
    packerFinish align p = .ok q ↔ p.phase = .opened ∧
      ((p.nacc.toNat = 0 ∧ q = { p with phase := .done }) ∨
       (0 < p.nacc.toNat ∧ p.len.toNat < Config.pkBufBytes ∧
        q = { p.pushed (finalByte align p) with acc := 0#7, nacc := 0#3, phase := .done })) := by
  unfold packerFinish
  by_cases h1 : p.phase = .opened
  · simp only [h1, if_true, true_and]
    by_cases h : 0 < p.nacc.toNat
    · have h' : p.nacc.toNat ≠ 0 := by omega
      simp only [h, if_true, h', false_and, false_or, true_and]
      by_cases hl : p.len.toNat < Config.pkBufBytes
      · rw [push_ok_iff_pushed.2 ⟨hl, rfl⟩]
        simp [hl, eq_comm]
      · simp [push, hl]
    · have h' : p.nacc.toNat = 0 := by omega
      simp [h', eq_comm]
  · simp [h1]

section
variable (v : Group) (p : Packer) (rem : Nat)
@[simp] theorem keepRemainder_phase : (keepRemainder v p rem).phase = p.phase := by unfold keepRemainder; split <;> rfl
@[simp] theorem keepRemainder_wc : (keepRemainder v p rem).wc = p.wc := by unfold keepRemainder; split <;> rfl
@[simp] theorem keepRemainder_cnt : (keepRemainder v p rem).cnt = p.cnt := by unfold keepRemainder; split <;> rfl
@[simp] theorem keepRemainder_buf : (keepRemainder v p rem).buf = p.buf := by unfold keepRemainder; split <;> rfl
@[simp] theorem keepRemainder_len : (keepRemainder v p rem).len = p.len := by unfold keepRemainder; split <;> rfl
end

end Sys2Proof.Machine
end

