-- ==== Sys2Proof/Laws/Exec.lean ====
section
/-! SUPPORT. What executing a command can do, said once for all eight: refused by an older fault, failed, faulted, or completed
with the effect of its own operation. -/

namespace Sys2Proof.Machine

/-- The completed effect of a command: the state it leaves before the answer, and the answer. -/
def Effect : Instr → State → State → Response → Prop
  | .pkInit wc, s, u, r => ∃ p, packerInit wc s.pk = .ok p ∧ u = { s with pk := p } ∧ r = .done
  | .pkWrite11 v, s, u, r => ∃ p, packerWrite11 v s.pk = .ok p ∧ u = { s with pk := p } ∧ r = .done
  | .pkFinish, s, u, r => ∃ p, packerFinish Config.pkFinalAlign s.pk = .ok p ∧ u = { s with pk := p } ∧ r = .done
  | .pkTake, s, u, r => ∃ bytes, packerTake s.pk = .ok bytes ∧ u = s ∧ r = .taken bytes
  | .upInit slice, s, u, r => slice.length ≤ Config.upCap ∧ u = { s with up := unpackerInit slice s.up } ∧ r = .done
  | .upRead11, s, u, r => ∃ v w, unpackerRead11 s.up = .ok (v, w) ∧ u = { s with up := w } ∧ r = .value v
  | .mnEncode entropy, s, u, r => ∃ g, codecEncode Sha256.h1 entropy = .ok g ∧ u = s ∧ r = .indices g
  | .mnDecode tokens, s, u, r => ∃ g entropy,
      codecDecode Config.pkFinalAlign Sha256.h1 tokens = .ok (g, entropy) ∧ u = s ∧ r = .recovered g entropy

/-- A command whose completed operation has the effect `P` ends in one of the four ways. -/
theorem command_next {s t : State} {op : Except Stop (State × Response)} {P : State → Response → Prop}
    (hP : ∀ u r, op = .ok (u, r) → P u r) (h : command s op = .next t) :
    (∃ c, s.fault = some c ∧ t = respond (.fault c) s) ∨
    (s.fault = none ∧ ((∃ e, t = respond (.error e) s) ∨ (∃ c, t = raiseFault c s) ∨
      ∃ u r, P u r ∧ t = respond r u)) := by
  obtain ⟨c, hf, rfl⟩ | ⟨hf, u, r, ho, rfl⟩ | ⟨hf, e, -, rfl⟩ | ⟨hf, c, -, rfl⟩ := command_cases h
  · exact .inl ⟨c, hf, rfl⟩
  · exact .inr ⟨hf, .inr (.inr ⟨u, r, hP u r ho, rfl⟩)⟩
  · exact .inr ⟨hf, .inl ⟨e, rfl⟩⟩
  · exact .inr ⟨hf, .inr (.inl ⟨c, rfl⟩)⟩

/-- The one inversion lemma of exec. -/
theorem exec_cases {i : Instr} {s t : State} (h : exec i s = .next t) :
    (∃ c, s.fault = some c ∧ t = respond (.fault c) s) ∨
    (s.fault = none ∧ ((∃ e, t = respond (.error e) s) ∨ (∃ c, t = raiseFault c s) ∨
      ∃ u r, Effect i s u r ∧ t = respond r u)) := by
  cases i with
  | pkInit wc =>
    refine command_next (fun u r ho => ?_) h
    cases hp : packerInit wc s.pk <;> rw [hp] at ho <;> cases ho
    exact ⟨_, hp, rfl, rfl⟩
  | pkWrite11 v =>
    refine command_next (fun u r ho => ?_) h
    cases hp : packerWrite11 v s.pk <;> rw [hp] at ho <;> cases ho
    exact ⟨_, hp, rfl, rfl⟩
  | pkFinish =>
    refine command_next (fun u r ho => ?_) h
    cases hp : packerFinish Config.pkFinalAlign s.pk <;> rw [hp] at ho <;> cases ho
    exact ⟨_, hp, rfl, rfl⟩
  | pkTake =>
    refine command_next (fun u r ho => ?_) h
    cases hp : packerTake s.pk <;> rw [hp] at ho <;> cases ho
    exact ⟨_, hp, rfl, rfl⟩
  | upInit slice =>
    simp only [exec, execUpInit] at h
    split at h
    · exact command_next (fun u r ho => by cases ho; exact ⟨‹_›, rfl, rfl⟩) h
    · cases h
  | upRead11 =>
    refine command_next (fun u r ho => ?_) h
    cases hp : unpackerRead11 s.up <;> rw [hp] at ho <;> cases ho
    exact ⟨_, _, hp, rfl, rfl⟩
  | mnEncode entropy =>
    refine command_next (fun u r ho => ?_) h
    cases hp : codecEncode Sha256.h1 entropy <;> rw [hp] at ho <;> cases ho
    exact ⟨_, hp, rfl, rfl⟩
  | mnDecode tokens =>
    refine command_next (fun u r ho => ?_) h
    cases hp : codecDecode Config.pkFinalAlign Sha256.h1 tokens <;> rw [hp] at ho <;> cases ho
    exact ⟨_, _, hp, rfl, rfl⟩

end Sys2Proof.Machine
end

