-- ==== Sys2Proof/Laws/PerInstr.lean ====
section
/-! SUPPORT. Statements made for every instruction, one lemma per constructor (LAWS.json, "per_instruction"). -/

namespace Sys2Proof

@[simp] theorem frameOf_length (op : BitVec 4) (arg : BitVec 11) (payload : List Byte) :
    (frameOf op arg payload).length = 2 + payload.length := by
  simp [frameOf, be16Bytes]; omega

@[simp] theorem bytesOfTokens_length (ts : List Token) : (bytesOfTokens ts).length = 2 * ts.length := by
  induction ts with
  | nil => rfl
  | cons t ts ih => simp [bytesOfTokens, be16Bytes, ih]; omega

end Sys2Proof

namespace Sys2Proof.Laws.FrameLength

/-- The payload bytes that a command's operands take (spec/30_encoding.md R71). -/
def payloadBytes : Instr → Nat
  | .pkInit _ => 0
  | .pkWrite11 _ => 0
  | .pkFinish => 0
  | .pkTake => 0
  | .upInit slice => slice.length
  | .upRead11 => 0
  | .mnEncode entropy => entropy.length
  | .mnDecode tokens => 2 * tokens.length

/-- R71: the frame of a well-formed command has 2 + P bytes. -/
def Statement (i : Instr) : Prop := i.wellFormed = true → (encode i).length = 2 + payloadBytes i

theorem pkInit (wc : BitVec 11) : Statement (.pkInit wc) := fun _ => by simp [encode, payloadBytes]
theorem pkWrite11 (v : Group) : Statement (.pkWrite11 v) := fun _ => by simp [encode, payloadBytes]
theorem pkFinish : Statement .pkFinish := fun _ => by simp [encode, payloadBytes]
theorem pkTake : Statement .pkTake := fun _ => by simp [encode, payloadBytes]
theorem upInit (slice : List Byte) : Statement (.upInit slice) := fun _ => by simp [encode, payloadBytes]
theorem upRead11 : Statement .upRead11 := fun _ => by simp [encode, payloadBytes]
theorem mnEncode (entropy : List Byte) : Statement (.mnEncode entropy) := fun _ => by simp [encode, payloadBytes]
theorem mnDecode (tokens : List Token) : Statement (.mnDecode tokens) := fun _ => by simp [encode, payloadBytes]

end Sys2Proof.Laws.FrameLength
end

