-- ==== Sys2Proof/Machine/Assembler.lean ====
section
/-! DEFINITION. The assembler syntax of one command line (spec/30_encoding.md R78). Extra spaces and the case of hexadecimal
digits are this model's reading (log 17). A line is a list of characters. -/

namespace Sys2Proof.Machine.Assembler

/-- Why a line is not a command. -/
inductive AsmError where
  | unknownMnemonic
  | operandCount
  | badNumber
  | badBytes
  | tooLarge
  deriving DecidableEq, Repr

/-- The digit a character stands for in a base of at most 16. -/
def digit (base : Nat) (c : Char) : Option Nat :=
  let n := c.toNat
  let d := if 48 ≤ n ∧ n ≤ 57 then n - 48
    else if 97 ≤ n ∧ n ≤ 102 then n - 87
    else if 65 ≤ n ∧ n ≤ 70 then n - 55
    else 16
  if d < base then some d else none

/-- The value of digits after `acc`. -/
def digits (base : Nat) : Nat → List Char → Option Nat
  | acc, [] => some acc
  | acc, c :: cs =>
    match digit base c with
    | none => none
    | some d => digits base (acc * base + d) cs

/-- "Numbers are decimal, or hexadecimal with `0x`." -/
def number : List Char → Option Nat
  | [] => none
  | '0' :: 'x' :: c :: cs => digits 16 0 (c :: cs)
  | c :: cs => digits 10 0 (c :: cs)

/-- An 11-bit operand. -/
def operand11 (w : List Char) : Except AsmError (BitVec 11) :=
  match number w with
  | none => .error .badNumber
  | some n => if n < 2048 then .ok (BitVec.ofNat 11 n) else .error .tooLarge

/-- Hexadecimal digit pairs. -/
def hexPairs : List Char → Except AsmError (List Byte)
  | [] => .ok []
  | [_] => .error .badBytes
  | a :: b :: rest =>
    match digit 16 a, digit 16 b, hexPairs rest with
    | some h, some l, .ok bs => .ok (BitVec.ofNat 8 (16 * h + l) :: bs)
    | _, _, _ => .error .badBytes

/-- "A byte payload is written as one string of hexadecimal digit pairs, or `-` for the empty payload." -/
def bytesOperand (w : List Char) : Except AsmError (List Byte) :=
  if w = ['-'] then .ok []
  else
    match hexPairs w with
    | .error e => .error e
    | .ok bs => if bs.length ≤ Config.upCap then .ok bs else .error .tooLarge

/-- "A token is written as its index, or `?` for a miss", which is sent as 08 00. -/
def tokenOperand (w : List Char) : Except AsmError Token :=
  if w = ['?'] then .ok ⟨true, 0#11⟩
  else
    match operand11 w with
    | .error e => .error e
    | .ok i => .ok ⟨false, i⟩

/-- The tokens of MN.DECODE. -/
def tokenOperands : List (List Char) → Except AsmError (List Token)
  | [] => .ok []
  | w :: ws =>
    match tokenOperand w with
    | .error e => .error e
    | .ok t =>
      match tokenOperands ws with
      | .error e => .error e
      | .ok ts => .ok (t :: ts)

/-- The line before its comment: "`;` starts a comment." -/
def beforeComment (line : List Char) : List Char := line.takeWhile fun c => c != ';'

/-- The words of a line, separated by spaces. -/
def words : List Char → List Char → List (List Char)
  | [], [] => []
  | [], cur => [cur.reverse]
  | c :: cs, cur =>
    if c = ' ' then (if cur.isEmpty then words cs [] else cur.reverse :: words cs [])
    else words cs (c :: cur)

/-- A command with no operand. -/
def noOperand (i : Instr) (ops : List (List Char)) : Except AsmError (Option Instr) :=
  if ops.isEmpty then .ok (some i) else .error .operandCount

/-- A command with one operand. -/
def oneOperand {α : Type} (mk : α → Instr) (read : List Char → Except AsmError α) :
    List (List Char) → Except AsmError (Option Instr)
  | [w] =>
    match read w with
    | .error e => .error e
    | .ok a => .ok (some (mk a))
  | _ => .error .operandCount

/-- One line: a command, or nothing on an empty or comment line. -/
def parseLine (line : List Char) : Except AsmError (Option Instr) :=
  match words (beforeComment line) [] with
  | [] => .ok none
  | m :: ops =>
    if m = ['P', 'K', '.', 'I', 'N', 'I', 'T'] then oneOperand .pkInit operand11 ops
    else if m = ['P', 'K', '.', 'W', 'R', 'I', 'T', 'E', '1', '1'] then oneOperand .pkWrite11 operand11 ops
    else if m = ['P', 'K', '.', 'F', 'I', 'N', 'I', 'S', 'H'] then noOperand .pkFinish ops
    else if m = ['P', 'K', '.', 'T', 'A', 'K', 'E'] then noOperand .pkTake ops
    else if m = ['U', 'P', '.', 'I', 'N', 'I', 'T'] then oneOperand .upInit bytesOperand ops
    else if m = ['U', 'P', '.', 'R', 'E', 'A', 'D', '1', '1'] then noOperand .upRead11 ops
    else if m = ['M', 'N', '.', 'E', 'N', 'C', 'O', 'D', 'E'] then oneOperand .mnEncode bytesOperand ops
    else if m = ['M', 'N', '.', 'D', 'E', 'C', 'O', 'D', 'E'] then
      match tokenOperands ops with
      | .error e => .error e
      | .ok ts => if ts.length ≤ Config.upCap then .ok (some (.mnDecode ts)) else .error .tooLarge
    else .error .unknownMnemonic

/-- The frame of a line (R78's second column): the encoder's frame of its command. -/
def assemble (line : List Char) : Except AsmError (Option (List Byte)) :=
  match parseLine line with
  | .error e => .error e
  | .ok none => .ok none
  | .ok (some i) => .ok (some (encode i))

end Sys2Proof.Machine.Assembler
end

