-- ==== Sys2Proof/Tests/Slice0.lean ====
section
/-! SUPPORT. Small checks on fixed values, each taken from spec/95_test_vectors.md or from an example of a rule, and for
every statement with hypotheses a witness that meets them. -/

namespace Sys2Proof.Tests

open Sys2Proof.Machine

/-- The next state of an outcome. -/
def after : Host.Outcome State Fault Refusal → Option State
  | .next s => some s
  | .fault _ => none
  | .refused _ => none

/-- The response frames given by one command on a state with an empty outbox. -/
def replies (i : Instr) (s : State) : Option (List (List Byte)) := (after (exec i s)).map State.outbox

/-- A packer in phase OPEN. -/
def openAt (wc cnt : BitVec 5) (buf : List Byte) (acc : BitVec 7) (nacc : BitVec 3) : State :=
  { State.reset with pk :=
    { phase := .opened, wc := wc, cnt := cnt, buf := Memory.writeAll [] 0 buf, len := BitVec.ofNat 6 buf.length,
      acc := acc, nacc := nacc } }

/-- A finished packer. -/
def doneWith (buf : List Byte) : State :=
  { State.reset with pk := { Packer.reset with
      phase := .done, wc := 1, cnt := 1, buf := Memory.writeAll [] 0 buf, len := BitVec.ofNat 6 buf.length } }

/-- A bound unpacker. -/
def boundTo (slice : List Byte) (pos : BitVec 14) : State :=
  { State.reset with up :=
    { phase := .bound, buf := Memory.writeAll [] 0 slice, len := BitVec.ofNat 11 slice.length, pos := pos } }

/-- The slice of T13. -/
def sliceT13 : List Byte := [0x12, 0x34, 0x56, 0x78, 0x9A, 0xBC, 0xDE, 0xF0, 0x0F, 0x1E, 0x2D]

/-! ### Decoding: words written out from R66 and R67 -/

/-- 0001 0 00000001100: `PK.INIT 12` (R90's example). -/
theorem test_decode_pkInit : decodeTableWord 16 0b0001000000001100 = some (.pkInit 12) := by decide
/-- 0010 0 10101010101: T51's `25 55`. -/
theorem test_decode_pkWrite11 : decodeTableWord 16 0b0010010101010101 = some (.pkWrite11 0x555) := by decide
theorem test_decode_pkFinish : decodeTableWord 16 0b0011000000000000 = some .pkFinish := by decide
theorem test_decode_pkTake : decodeTableWord 16 0b0100000000000000 = some .pkTake := by decide
/-- 0101 0 00000000011 with payload 12 34 56 (R110's example). -/
theorem test_decode_upInit : decode [0x50, 0x03, 0x12, 0x34, 0x56] = .ok (.upInit [0x12, 0x34, 0x56]) := by rfl
theorem test_decode_upRead11 : decodeTableWord 16 0b0110000000000000 = some .upRead11 := by decide
/-- 1000 0 00000000010 with two payload bytes. -/
theorem test_decode_mnEncode : decode [0x80, 0x02, 0xFF, 0x01] = .ok (.mnEncode [0xFF, 0x01]) := by rfl
/-- 1001 0 00000000010 with the tokens 2037 and a miss whose IDX is 2047 (T37's `0F FF`). -/
theorem test_decode_mnDecode :
    decode [0x90, 0x02, 0x07, 0xF5, 0x0F, 0xFF] = .ok (.mnDecode [⟨false, 2037⟩, ⟨true, 2047⟩]) := by rfl
/-- The encoder writes the same words (R78's second column). -/
theorem test_encode : encode (.pkWrite11 0x6B5) = [0x26, 0xB5] ∧ encode (.mnDecode [⟨false, 3⟩, ⟨true, 0⟩]) =
    [0x90, 0x02, 0x00, 0x03, 0x08, 0x00] := by decide
/-- T50: illegal frames, by name. -/
theorem test_illegal_frames :
    decode [0x00, 0x00] = .error (.reservedOp 0) ∧ decode [0x70, 0x00] = .error (.reservedOp 7) ∧
    decode [0xF7, 0xFF] = .error (.reservedOp 15) ∧ decode [0x28, 0x00] = .error .zBitSet ∧
    decode [0x30, 0x01] = .error .argNotZero ∧ decode [0x60, 0x05] = .error .argNotZero ∧
    decode [0x50, 0x02, 0xAA] = .error .wrongLength ∧ decode [0x10, 0x0C, 0x00] = .error .wrongLength ∧
    decode [0x80, 0x10, 0x00] = .error .wrongLength ∧ decode [0x90, 0x01, 0x10, 0x03] = .error .tokenReserved ∧
    decode [0x70] = .error .tooShort ∧ decode [] = .error .tooShort :=
  ⟨rfl, rfl, rfl, rfl, rfl, rfl, rfl, rfl, rfl, rfl, rfl, rfl⟩

/-! ### WellFormed: an ill-formed term for each check (R68) -/

theorem test_illFormed_upInit : (Instr.upInit (List.replicate 2048 0)).wellFormed = false := by
  rw [Instr.wellFormed, List.length_replicate]; decide
theorem test_illFormed_mnEncode : (Instr.mnEncode (List.replicate 2048 0)).wellFormed = false := by
  rw [Instr.wellFormed, List.length_replicate]; decide
theorem test_illFormed_mnDecode : (Instr.mnDecode (List.replicate 2048 ⟨false, 0⟩)).wellFormed = false := by
  rw [Instr.wellFormed, List.length_replicate]; decide

/-! ### PK -/

/-- R90's example. -/
theorem test_pkInit : (after (exec (.pkInit 12) State.reset)).map (fun t => (t.pk.phase, t.pk.wc, t.outbox)) =
    some (.opened, 12, [[0x00]]) := by decide
/-- T9: 25 is one too many; only FAULT changes. -/
theorem test_pkInit_tooLarge : (after (exec (.pkInit 25) State.reset)).map (fun t => (t.pk, t.fault, t.outbox)) =
    some (Packer.reset, some .pkCountTooLarge, [[0x81]]) := by decide
/-- T1 write 3: two bytes, `02 AA`, and one bit left. -/
theorem test_pkWrite11 : (after (exec (.pkWrite11 0x555) (openAt 8 2 [0xFF, 0xE0] 0 6))).map (fun t => t.pk) =
    some (openAt 8 3 [0xFF, 0xE0, 0x02, 0xAA] 1 1).pk := by decide
/-- T10: the phase is checked before the count. -/
theorem test_pkWrite11_done : replies (.pkWrite11 2) (doneWith [0x00, 0x20]) = some [[0x82]] := by decide
/-- T2: `1 << 7 = 0x80`. -/
theorem test_pkFinish : (after (exec .pkFinish (openAt 3 3 [0xFF, 0xE0, 0x02, 0xAA] 1 1))).map
    (fun t => (t.pk.phase, t.pk.buf, t.pk.len, t.pk.nacc)) =
    some (.done, [(0, 0xFF), (1, 0xE0), (2, 0x02), (3, 0xAA), (4, 0x80)], 5, 0) := by decide
/-- R93's example. -/
theorem test_pkTake : replies .pkTake (doneWith [0x00, 0x20]) = some [[0x00, 0x02, 0x00, 0x20]] := by decide
/-- T10: take in phase OPEN. -/
theorem test_pkTake_open : replies .pkTake (openAt 1 0 [] 0 0) = some [[0x82]] := by decide

/-! ### UP -/

/-- R110's example. -/
theorem test_upInit : (after (exec (.upInit [0x12, 0x34, 0x56]) State.reset)).map (fun t => t.up) =
    some (boundTo [0x12, 0x34, 0x56] 0).up := by decide
/-- T13 read 2: three bytes are touched; the value is 0x4F1. -/
theorem test_upRead11 : (after (exec .upRead11 (boundTo sliceT13 22))).map (fun t => (t.up.pos, t.outbox)) =
    some (33, [[0x00, 0x04, 0xF1]]) := by decide
/-- T14: one read past the end. -/
theorem test_upRead11_end : (after (exec .upRead11 (boundTo sliceT13 88))).map (fun t => (t.up.pos, t.outbox)) =
    some (88, [[0x85]]) := by decide

/-! ### MN, FV and the hash -/

/-- V1. -/
theorem test_mnEncode : replies (.mnEncode (List.replicate 16 0x00)) State.reset =
    some [0x00 :: 0x0C :: List.replicate 22 0x00 ++ [0x00, 0x03]] := by decide +kernel
/-- V3: 18 bytes. -/
theorem test_mnEncode_length : replies (.mnEncode (List.replicate 18 0x00)) State.reset = some [[0x01]] := by decide
/-- T31: an alias passes, and the entropy is the other one. -/
theorem test_mnDecode : replies (.mnDecode (hits (List.replicate 11 0 ++ [23]))) State.reset =
    some [0x00 :: 0x0C :: List.replicate 22 0x00 ++ [0x00, 0x17, 0x10] ++ List.replicate 15 0x00 ++ [0x01]] := by
  decide +kernel
/-- T34: thirteen tokens, the last a miss: the count comes first. -/
theorem test_mnDecode_order : replies (.mnDecode (hits (List.replicate 12 0) ++ [⟨true, 0⟩])) State.reset =
    some [[0x02]] := by decide
/-- T43, the row of fifteen words: `E0` against `E7`, and a byte that differs in the compared bits. -/
theorem test_fvCsum : fvCsum .high (fun _ => 0xE7) (List.replicate 20 0x00 ++ [0xE0]) 15 = .ok () ∧
    fvCsum .high (fun _ => 0xE7) (List.replicate 20 0x00 ++ [0xD8]) 15 = .error (.fail .checksumMismatch) :=
  ⟨rfl, rfl⟩
/-- S2: the digest of `abc`. -/
theorem test_sha256_abc : Sha256.digest [0x61, 0x62, 0x63] =
    [0xba, 0x78, 0x16, 0xbf, 0x8f, 0x01, 0xcf, 0xea, 0x41, 0x41, 0x40, 0xde, 0x5d, 0xae, 0x22, 0x23,
     0xb0, 0x03, 0x61, 0xa3, 0x96, 0x17, 0x7a, 0x9c, 0xb4, 0x10, 0xff, 0x61, 0xf2, 0x00, 0x15, 0xad] := by
  decide +kernel
/-- S14: 56 bytes, two blocks. -/
theorem test_sha256_twoBlocks : Sha256.h1 ((List.range 56).map (BitVec.ofNat 8 ·)) = 0xDA := by decide +kernel

/-! ### The step, the host's text, the assembler -/

/-- T52: the first fault is kept, an illegal frame does not mask it. -/
theorem test_sticky : (after (step { State.reset with fault := some .upProtocol, inbox := [.frame [0x00, 0x00]] })).map
    (fun t => (t.fault, t.outbox)) = some (some .upProtocol, [[0x84]]) := by decide
/-- P5 step 4: RST clears the fault and gives no response. -/
theorem test_rst : (after (step { openAt 2 1 [0x00] 1 3 with fault := some .pkOverflow, inbox := [.rst] })) =
    some State.reset := by decide
/-- T50: `28 00` sent from reset. -/
theorem test_badCommand : (after (step (State.reset.withFetchWord 16 0x2800))).map (fun t => (t.fault, t.outbox)) =
    some (some .badCommand, [[0x86]]) := by decide
/-- The core's step is the machine's. -/
theorem test_core : (after (Sys2Proof.core.step (State.reset.withFetchWord 16 0x1018))).map (fun t => t.pk.wc) =
    some 24 := by decide

/-- A dictionary that has the four pinned entries of R28, and no other word of letters. -/
def pinnedWords : Dictionary := fun i =>
  if i = 0 then [0x61, 0x62, 0x61, 0x6e, 0x64, 0x6f, 0x6e]
  else if i = 3 then [0x61, 0x62, 0x6f, 0x75, 0x74]
  else if i = 2037 then [0x77, 0x72, 0x6f, 0x6e, 0x67]
  else if i = 2047 then [0x7a, 0x6f, 0x6f]
  else [0x2d]

/-- V1 as text: eleven times "abandon", then "about". -/
theorem test_toText : (mnToText pinnedWords (List.replicate 16 0x00) State.reset).2 =
    .text (joinWords (List.replicate 11 (pinnedWords 0) ++ [pinnedWords 3])) := by decide +kernel
/-- T39: a trailing space is one more word, so the count is wrong. -/
theorem test_fromText : (mnFromText pinnedWords
    (joinWords (List.replicate 11 (pinnedWords 0) ++ [pinnedWords 0]) ++ [space]) State.reset).2 =
    .status 0x02 := by decide +kernel
/-- R141: two adjacent spaces give an empty word. -/
theorem test_parse : parseWords [0x61, 0x20, 0x20, 0x62] = [[0x61], [], [0x62]] := by decide
/-- R78: `PK.WRITE11 0x7FF ; top`. -/
theorem test_assemble : Assembler.assemble
    ['P', 'K', '.', 'W', 'R', 'I', 'T', 'E', '1', '1', ' ', '0', 'x', '7', 'F', 'F', ' ', ';', 't'] =
    .ok (some [0x27, 0xFF]) := by rfl
/-- R78: `MN.DECODE 3 ?`. -/
theorem test_assemble_miss : Assembler.assemble
    ['M', 'N', '.', 'D', 'E', 'C', 'O', 'D', 'E', ' ', '3', ' ', '?'] =
    .ok (some [0x90, 0x02, 0x00, 0x03, 0x08, 0x00]) := by rfl

/-! ### Witnesses: every statement with hypotheses is met somewhere, clause by clause, at boundary values. A witness has the
name of its statement. -/

/-- An OPEN packer that meets the invariant: 23 of 24 values written, residue of 5 bits. -/
def lateOpen : State := openAt 24 23 (List.replicate 31 0xAA) 0b10101 5

/-- The same with a frame waiting. -/
def waiting (f : List Byte) : State := { lateOpen with inbox := [.frame f] }

theorem lateOpen_inv : lateOpen.Inv where
  packer :=
    { wc_le := by decide, cnt_le := by decide, idle_zero := by decide, open_len := by decide,
      done_len := by decide, acc_lt := by decide, buf_wf := by decide, buf_below := by decide,
      buf_listed := by decide }
  unpacker :=
    { unbound_zero := by decide, pos_le := by decide, pos_multiple := by decide, buf_wf := by decide,
      buf_below := by decide, buf_listed := by decide }

theorem waiting_inv (f : List Byte) : (waiting f).Inv := ⟨lateOpen_inv.packer, lateOpen_inv.unpacker⟩

theorem witness_DecodeInvertsEncode : (Instr.mnDecode [⟨true, 2047⟩]).wellFormed = true := by decide
theorem witness_DecodedFrameIsTheEncoding : decode [0x17, 0xFF] = .ok (.pkInit 2047) := rfl
/-- One frame for each clause of R75, a legal one, and states with and without an older fault. -/
theorem witness_IllegalFramesAreExactlyTheListed :
    (IllegalByRule [0x70] ∧ IllegalByRule [0xA0, 0x00] ∧ IllegalByRule [0x28, 0x00] ∧ IllegalByRule [0x60, 0x05] ∧
      IllegalByRule [0x90, 0x01, 0x10, 0x03] ∧ IllegalByRule [0x50, 0x02, 0xAA] ∧ ¬ IllegalByRule [0x10, 0x0C]) ∧
    ((waiting [0x70]).inbox = [.frame [0x70]] ∧ (waiting [0x70]).fault = none) ∧
    ({ waiting [0x70] with fault := some .pkOverflow }.inbox = [.frame [0x70]]) := by
  refine ⟨⟨.inl (by decide), .inr (.inl (by decide)), .inr (.inr (.inl (by decide))),
    .inr (.inr (.inr (.inl (by decide)))), .inr (.inr (.inr (.inr (.inl ⟨by decide, 0, by decide, by decide⟩)))),
    .inr (.inr (.inr (.inr (.inr (by decide))))), ?_⟩, ⟨rfl, rfl⟩, rfl⟩
  rintro (h | h | h | h | ⟨h, -⟩ | h) <;> revert h <;> decide
theorem witness_StepRunsTheDecodedCommand :
    (waiting [0x60, 0x00]).inbox = [.frame [0x60, 0x00]] ∧ decode [0x60, 0x00] = .ok .upRead11 := ⟨rfl, rfl⟩
theorem witness_PlacedWordRunsNext : decodeTableWord 16 0x17FF = some (.pkInit 2047) := by decide
theorem witness_StepWithoutEventChangesNothing : lateOpen.inbox = [] := rfl
/-- Both forms of RST, and a step that clears a fault. -/
theorem witness_OnlyResetSignalClearsFault :
    (∃ t, { lateOpen with fault := some .pkOverflow, inbox := [.rst] }.inbox = [HostEvent.rst] ∧
      { lateOpen with fault := some .pkOverflow, inbox := [.rst] }.fault = some .pkOverflow ∧
      step { lateOpen with fault := some .pkOverflow, inbox := [.rst] } = .next t ∧ t.fault ≠ some .pkOverflow) ∧
    { lateOpen with inbox := [.rstDuring [0x30, 0x00]] }.inbox = [HostEvent.rstDuring [0x30, 0x00]] :=
  ⟨⟨_, rfl, rfl, rfl, by decide⟩, rfl⟩
theorem witness_FirstCommandsAfterReset : (24#11).toNat ≤ 24 ∧ (List.replicate 2047 (0xFF : Byte)).length ≤ 2047 := by
  rw [List.length_replicate]; decide
theorem witness_FaultedBlockRefusesEveryFrame :
    { waiting [] with fault := some .badCommand }.fault = some .badCommand ∧
    { waiting [] with fault := some .badCommand }.inbox = [.frame []] := ⟨rfl, rfl⟩
theorem witness_FaultEntryIsPrecise : ∃ t, (waiting [0x60, 0x00]).inbox = [.frame [0x60, 0x00]] ∧
    (waiting [0x60, 0x00]).fault = none ∧ step (waiting [0x60, 0x00]) = .next t ∧ t.fault = some .upProtocol :=
  ⟨_, rfl, rfl, rfl, rfl⟩
theorem witness_ErrorEntryChangesNothing : ∃ t r, (waiting [0x90, 0x00]).inbox = [.frame [0x90, 0x00]] ∧
    step (waiting [0x90, 0x00]) = .next t ∧ t.outbox = (waiting [0x90, 0x00]).outbox ++ [r] ∧
    r.head? = some MnError.invalidWordCount.status := ⟨_, _, rfl, rfl, rfl, rfl⟩
theorem witness_ErrorsComeFromTheCodecOnly : ∃ t r, exec (.mnEncode []) lateOpen = .next t ∧
    t.outbox = lateOpen.outbox ++ [r] ∧ r.head? = some MnError.invalidEntropyLength.status := ⟨_, _, rfl, rfl, rfl⟩
theorem witness_EveryFrameGetsOneResponse : ∃ t, (waiting [0x30, 0x00]).Inv ∧
    (waiting [0x30, 0x00]).inbox = [.frame [0x30, 0x00]] ∧ step (waiting [0x30, 0x00]) = .next t :=
  ⟨_, waiting_inv _, rfl, rfl⟩
theorem witness_ChecksRunInOrder :
    ((doneWith [0x00, 0x20]).fault = none ∧ (doneWith [0x00, 0x20]).pk.phase = .done ∧
      (doneWith [0x00, 0x20]).pk.cnt = (doneWith [0x00, 0x20]).pk.wc) ∧
    (State.reset.fault = none ∧ State.reset.up.phase = .unbound ∧
      8 * State.reset.up.len.toNat < State.reset.up.pos.toNat + 11) ∧
    (Instr.pkTake.wellFormed = true ∧ { lateOpen with fault := some .pkProtocol }.fault = some .pkProtocol) := by decide
/-- A step that changes the state. -/
theorem witness_StepKeepsTheInvariant : ∃ t, (waiting [0x27, 0xFF]).Inv ∧ step (waiting [0x27, 0xFF]) = .next t ∧
    t.pk.len = 33 := ⟨_, waiting_inv _, rfl, by decide⟩
theorem witness_InvariantStatesAlwaysStep : (waiting [0x27, 0xFF]).Inv := waiting_inv _
/-- Two states that differ in a byte above PK.LEN. -/
theorem witness_UnwrittenBytesAreNeverObserved :
    State.reset ≠ { State.reset with pk := { Packer.reset with buf := [(5, 0xFF)] } } ∧
    SameButUnwritten State.reset { State.reset with pk := { Packer.reset with buf := [(5, 0xFF)] } } ∧
    step State.reset = .next State.reset :=
  ⟨by decide,
    ⟨rfl, fun i h => absurd h (Nat.not_lt_zero i), rfl, fun k h => absurd h (Nat.not_lt_zero k), rfl, rfl, rfl⟩, rfl⟩
/-- For each element, a command that changes it. -/
theorem witness_ElementsAreWrittenByTheirCommandsOnly :
    (∃ t, exec (.pkInit 3) lateOpen = .next t ∧ t.pk.wc ≠ lateOpen.pk.wc ∧ t.pk.cnt ≠ lateOpen.pk.cnt ∧
      t.pk.len ≠ lateOpen.pk.len) ∧
    (∃ t, exec .pkFinish lateOpen = .next t ∧ t.pk.phase ≠ lateOpen.pk.phase ∧ t.pk.buf ≠ lateOpen.pk.buf) ∧
    (∃ t, exec (.upInit [0x01]) lateOpen = .next t ∧ t.up.phase ≠ lateOpen.up.phase) ∧
    (∃ t, exec .upRead11 (boundTo sliceT13 0) = .next t ∧ t.up.pos ≠ (boundTo sliceT13 0).up.pos) :=
  ⟨⟨_, rfl, by decide, by decide, by decide⟩, ⟨_, rfl, by decide, by decide⟩, ⟨_, rfl, by decide⟩, ⟨_, rfl, by decide⟩⟩

theorem witness_PkInitConstructsThePacker : lateOpen.fault = none ∧ (24#11).toNat ≤ 24 ∧ 24 < (25#11).toNat := by decide
/-- The last room there is (two bytes, at 32 and 33), no packer, and a full count. -/
theorem witness_PkWrite11AppendsElevenBits :
    (let s := openAt 31 30 (List.replicate 32 0xFF) 0b1111111 7
     s.fault = none ∧ s.pk.phase = .opened ∧ s.pk.cnt.toNat < s.pk.wc.toNat ∧
     s.pk.acc.toNat < 2 ^ s.pk.nacc.toNat ∧ s.pk.len.toNat + (s.pk.nacc.toNat + 11) / 8 ≤ 34) ∧
    (State.reset.fault = none ∧ State.reset.pk.phase ≠ .opened) ∧
    (let s := openAt 0 0 [] 0 0
     s.fault = none ∧ s.pk.phase = .opened ∧ s.pk.wc.toNat ≤ s.pk.cnt.toNat) := by decide
theorem witness_PkFinishFlushesLeftAligned :
    (let s := openAt 8 8 (List.replicate 11 0x00) 0 0
     s.fault = none ∧ s.pk.phase = .opened ∧ s.pk.nacc.toNat = 0) ∧
    (let s := openAt 31 31 (List.replicate 33 0xFF) 1 1
     s.fault = none ∧ s.pk.phase = .opened ∧ 0 < s.pk.nacc.toNat ∧ s.pk.len.toNat < 34) ∧
    ((doneWith []).fault = none ∧ (doneWith []).pk.phase ≠ .opened) := by decide
theorem witness_PkTakeAnswersTheBytes :
    (let s := doneWith (List.replicate 34 0xFF)
     s.fault = none ∧ s.pk.phase = .done ∧ s.pk.len.toNat ≤ 34) ∧
    (lateOpen.fault = none ∧ lateOpen.pk.phase ≠ .done) := by decide
theorem witness_PackerCommandsFrame :
    (∃ t, exec (.pkInit 3) lateOpen = .next t) ∧ (∃ t, exec (.pkWrite11 2047) lateOpen = .next t) ∧
    (∃ t, exec .pkFinish lateOpen = .next t) ∧ (∃ t, exec .pkTake (doneWith [0x20]) = .next t) :=
  ⟨⟨_, rfl⟩, ⟨_, rfl⟩, ⟨_, rfl⟩, ⟨_, rfl⟩⟩
/-- As many values as declared, and none. -/
theorem witness_RegistersAfterEachWrite : lateOpen.fault = none ∧ (24#11).toNat ≤ 24 ∧
    (List.replicate 24 (2047 : Group)).length ≤ (24#11).toNat ∧ ([] : List Group).length ≤ (0#11).toNat := by decide
/-- P6's commands: two writes with a UP and an MN command between them. -/
def interleaved : List Instr := [.pkWrite11 1, .upInit [0x01], .mnEncode [], .pkWrite11 1024]
theorem interleaved_open : ∀ i, i ∈ interleaved → KeepsPackerOpen i := by
  intro i hi
  simp only [interleaved, List.mem_cons, List.not_mem_nil, or_false] at hi
  rcases hi with rfl | rfl | rfl | rfl <;> exact ⟨nofun, nofun⟩
theorem witness_OpenPackerHoldsTheBitsWritten : ∃ t, (∀ i, i ∈ interleaved → KeepsPackerOpen i) ∧
    CleanRun (.pkInit 2 :: interleaved) State.reset t := ⟨_, interleaved_open, rfl, rfl, rfl⟩
theorem witness_FinishedPackerHoldsTheBitStream : ∃ t, (∀ i, i ∈ interleaved → KeepsPackerOpen i) ∧
    CleanRun (.pkInit 2 :: interleaved ++ [.pkFinish]) State.reset t := ⟨_, interleaved_open, rfl, rfl, rfl⟩
theorem witness_UnpackingInvertsPacking : lateOpen.fault = none ∧ (24#11).toNat ≤ 24 ∧
    (List.replicate 24 (2047 : Group)).length ≤ (24#11).toNat := by decide
theorem witness_PackingInvertsUnpacking : lateOpen.fault = none ∧ (List.replicate 33 (0xFF : Byte)).length ≤ 2047 ∧
    24 ≤ 24 ∧ 11 * 24 ≤ 8 * (List.replicate 33 (0xFF : Byte)).length := by decide

theorem witness_UpInitBindsTheSlice : lateOpen.fault = none ∧ (List.replicate 2047 (0xFF : Byte)).length ≤ 2047 := by
  rw [List.length_replicate]; decide
/-- A read that ends exactly at the end of the slice, one bit short, and nothing bound. -/
theorem witness_UpRead11AnswersTheNextGroup :
    (let s := boundTo sliceT13 77
     s.fault = none ∧ s.up.phase = .bound ∧ s.up.pos.toNat + 11 ≤ 8 * s.up.len.toNat) ∧
    (State.reset.fault = none ∧ State.reset.up.phase = .unbound) ∧
    (let s := boundTo sliceT13 78
     s.fault = none ∧ s.up.phase = .bound ∧ 8 * s.up.len.toNat < s.up.pos.toNat + 11) := by decide
theorem witness_UnpackerCommandsFrame :
    (∃ t, exec (.upInit [0x01]) (boundTo sliceT13 0) = .next t) ∧ (∃ t, exec .upRead11 (boundTo sliceT13 0) = .next t) :=
  ⟨⟨_, rfl⟩, ⟨_, rfl⟩⟩
/-- Two contents that differ in the third byte only, at offset 5. -/
theorem witness_ReadTouchesTwoOrThreeBytes :
    let f := byteOf [0x11, 0x22, 0x33]; let g := byteOf [0x11, 0x22, 0x44]
    f (5 / 8) = g (5 / 8) ∧ f (5 / 8 + 1) = g (5 / 8 + 1) ∧ (6 ≤ 5 % 8 → f (5 / 8 + 2) = g (5 / 8 + 2)) := by decide
theorem witness_ExactNumberOfReads : lateOpen.fault = none ∧ ([] : List Byte).length ≤ 2047 ∧
    (List.replicate 33 (0xFF : Byte)).length ≤ 2047 ∧ 32 ∈ Config.entLens := by decide

theorem witness_EntropyLengthCheckPassesExactlyEntLens : 16 ∈ Config.entLens ∧ 32 ∈ Config.entLens ∧
    15 ∉ Config.entLens ∧ 33 ∉ Config.entLens := by decide
theorem witness_WordCountCheckPassesExactlyWordCounts : 12 ∈ Config.wordCounts ∧ 24 ∈ Config.wordCounts ∧
    11 ∉ Config.wordCounts ∧ 25 ∉ Config.wordCounts := by decide
theorem witness_FrameParametersCorrespond : 16 ∈ Config.entLens ∧ 32 ∈ Config.entLens := by decide
theorem witness_ChecksumPassesIffLastIndexAgrees :
    (List.replicate 11 (0 : Group)).length + 1 ∈ Config.wordCounts ∧
    packIndices .high (List.replicate 11 0 ++ [3]) = .ok (List.replicate 16 0x00 ++ [0x30]) :=
  ⟨by decide, rfl⟩

theorem witness_MnEncodeAnswersTheGroups : lateOpen.fault = none ∧
    (List.replicate 32 (0xFF : Byte)).length ∈ Config.entLens ∧
    (List.replicate 33 (0xFF : Byte)).length ∉ Config.entLens := by decide
theorem witness_CodecCommandsArePureAndNeverFault : lateOpen.fault = none := rfl
theorem witness_EncodingIsInjectiveForEveryHash : codecEncode (fun _ => 0x37) (List.replicate 16 0x00) =
    .ok (List.replicate 11 0 ++ [3]) := rfl
theorem witness_LowChecksumBitsAreNeverRead : (List.replicate 16 (0x00 : Byte)).length ∈ Config.entLens ∧
    (0x37 : Byte).toNat / 2 ^ (8 - 16 / 4) = (0x3F : Byte).toNat / 2 ^ (8 - 16 / 4) := by decide
theorem witness_LastGroupCarriesTheChecksum : codecEncode (fun _ => 0xFF) (List.replicate 16 0x00) =
    .ok (List.replicate 11 0 ++ [15]) := rfl
/-- An illegal count, a miss, and both verdicts of the checksum on the all-zero frame (`H1` of it begins with 3). -/
theorem witness_MnDecodeValidatesAndRecovers :
    (lateOpen.fault = none ∧ (hits (List.replicate 13 0)).length ∉ Config.wordCounts) ∧
    (let ts := hits (List.replicate 11 0) ++ [⟨true, 0⟩]
     ts.length ∈ Config.wordCounts ∧ ∃ t, t ∈ ts ∧ t.miss = true) ∧
    (let ts := hits (List.replicate 11 0 ++ [3])
     ts.length ∈ Config.wordCounts ∧ (∀ t, t ∈ ts → t.miss = false) ∧
     List.replicate 16 0x00 = (List.range (4 * ts.length / 3)).map (byteOfStream (streamOf (ts.map Token.idx))) ∧
     numberOf ((streamOf (ts.map Token.idx)).drop (8 * (4 * ts.length / 3))) =
       (Sha256.h1 (List.replicate 16 0x00)).toNat / 2 ^ (8 - ts.length / 3)) ∧
    (let ts := hits (List.replicate 11 0 ++ [4])
     ts.length ∈ Config.wordCounts ∧ (∀ t, t ∈ ts → t.miss = false) ∧
     List.replicate 16 0x00 = (List.range (4 * ts.length / 3)).map (byteOfStream (streamOf (ts.map Token.idx))) ∧
     numberOf ((streamOf (ts.map Token.idx)).drop (8 * (4 * ts.length / 3))) ≠
       (Sha256.h1 (List.replicate 16 0x00)).toNat / 2 ^ (8 - ts.length / 3)) :=
  ⟨by decide, ⟨by decide, ⟨true, 0⟩, by decide, rfl⟩, by decide +kernel, by decide +kernel⟩

/-- What mn.decode answers, once the decoder's answer is known. -/
theorem exec_mnDecode_ok {ts : List Token} {s : State} {g : List (BitVec 11)} {entropy : List Byte}
    (hf : s.fault = none) (h : codecDecode Config.pkFinalAlign Sha256.h1 ts = .ok (g, entropy)) :
    exec (.mnDecode ts) s = .next { s with outbox := s.outbox ++ [(Response.recovered g entropy).bytes] } := by
  simp [exec, execMnDecode, command, unlessFaulted, hf, h, conclude, respond]

/-- A legal entropy, and a frame that decodes to an entropy (T30). -/
theorem witness_EncodeAndDecodeRoundTrip : State.reset.fault = none ∧
    (List.replicate 16 (0x00 : Byte)).length ∈ Config.entLens ∧
    exec (.mnDecode (hits (List.replicate 11 0 ++ [3]))) State.reset = .next { State.reset with outbox :=
      State.reset.outbox ++ [(Response.recovered (List.replicate 11 0 ++ [3]) (List.replicate 16 0x00)).bytes] } := by
  have h : codecDecode Config.pkFinalAlign Sha256.h1 (hits (List.replicate 11 0 ++ [3])) =
      .ok (List.replicate 11 0 ++ [3], List.replicate 16 0x00) := by decide +kernel
  exact ⟨rfl, by decide, exec_mnDecode_ok rfl h⟩

theorem witness_KnownVectorsComeOut : pinnedWords.Pinned := ⟨rfl, rfl, rfl, rfl⟩
theorem witness_InstancesDoNotInterfere : (1 : Nat) ≠ 0 ∧ (systemReset 2).length = 2 := by decide

/-- A dictionary that meets the contract: the words aaa, aab, ... of three letters. -/
def threeLetters : Dictionary := fun i =>
  [BitVec.ofNat 8 (97 + i.toNat / 676), BitVec.ofNat 8 (97 + i.toNat / 26 % 26), BitVec.ofNat 8 (97 + i.toNat % 26)]

theorem threeLetters_contract : threeLetters.Contract := by
  constructor
  · intro i
    have hi := i.isLt
    simp only [isWord, threeLetters, List.all_cons, List.all_nil, BitVec.toNat_ofNat, List.isEmpty_cons,
      Bool.not_false, Bool.and_true, Bool.true_and, Bool.and_eq_true, decide_eq_true_eq]
    omega
  · intro i j h
    have hi := i.isLt
    have hj := j.isLt
    simp only [textBefore, threeLetters, BitVec.toNat_ofNat, Bool.or_eq_true, Bool.and_eq_true, decide_eq_true_eq,
      BitVec.toNat_inj.symm, Bool.or_false, Bool.and_false]
    omega
theorem witness_ParseInvertsFormat : threeLetters.Contract ∧ ([2047] : List Group) ≠ [] :=
  ⟨threeLetters_contract, by decide⟩
/-- The contract, and a word that is no entry. -/
theorem witness_LookupFindsTheUniqueIndex : threeLetters.Contract ∧ ∀ i, threeLetters i ≠ [0x61] :=
  ⟨threeLetters_contract, fun i => by simp [threeLetters]⟩
theorem witness_TextRoundTrip : threeLetters.Contract ∧ lateOpen.fault = none ∧
    (List.replicate 32 (0xFF : Byte)).length ∈ Config.entLens := ⟨threeLetters_contract, by decide⟩

end Sys2Proof.Tests
end

/-! PROOFS. The correspondence of the frame parameters (spec/00_scope.md R5, spec/43_frame_validator.md R123, R124). A legal
frame is `k` groups of 32 entropy bits, `4 ≤ k ≤ 8`: 4k entropy bytes, 3k words, k checksum bits. -/
section
namespace Sys2Proof.Machine

theorem mem_entLens_iff_exists_eq_four_mul (l : Nat) :
    l ∈ Config.entLens ↔ ∃ k, 4 ≤ k ∧ k ≤ 8 ∧ l = 4 * k := by
  simp only [Config.entLens, List.mem_cons, List.not_mem_nil, or_false]
  constructor
  · intro h
    exact ⟨l / 4, by omega⟩
  · rintro ⟨k, hlo, hhi, rfl⟩
    omega

theorem three_mul_mem_wordCounts_iff (k : Nat) : 3 * k ∈ Config.wordCounts ↔ 4 ≤ k ∧ k ≤ 8 := by
  simp only [Config.wordCounts, List.mem_cons, List.not_mem_nil, or_false]
  omega

@[simp] theorem fvWords_four_mul (k : Nat) : fvWords (4 * k) = 3 * k := by
  unfold fvWords
  omega

@[simp] theorem fvCsbits_three_mul (k : Nat) : fvCsbits (3 * k) = k := by
  unfold fvCsbits
  omega

end Sys2Proof.Machine

namespace Sys2Proof
open Machine

/-- Settles O40: with `l = 4 * k`, the word count is `3 * k` and the checksum bits are `k`. -/
theorem frameParametersCorrespond : Obligations.FrameParametersCorrespond := by
  intro l hl
  obtain ⟨k, hlo, hhi, rfl⟩ := (mem_entLens_iff_exists_eq_four_mul l).mp hl
  have hwords : 3 * k ∈ Config.wordCounts := (three_mul_mem_wordCounts_iff k).mpr ⟨hlo, hhi⟩
  rw [fvWords_four_mul, fvCsbits_three_mul]
  refine ⟨hwords, ?_⟩
  omega

end Sys2Proof
end

/-! PROOFS. The step: what it can do, said once (spec/20_memory.md R53, spec/60_exceptions.md R164,
spec/70_reset_and_hazards.md R190), the step without an event, and the state after reset. -/
section
namespace Sys2Proof.Machine

/-- An illegal frame is refused by an older fault, or raises BadCommand. -/
theorem illegalCommand_cases {s t : State} (h : illegalCommand s = .next t) :
    (∃ c, s.fault = some c ∧ t = respond (.fault c) s) ∨ (s.fault = none ∧ t = raiseFault .badCommand s) := by
  cases hf : s.fault with
  | some c =>
    rw [illegalCommand, unlessFaulted_faulted hf] at h
    exact .inl ⟨c, rfl, (Host.Outcome.next.inj h).symm⟩
  | none =>
    rw [illegalCommand, unlessFaulted_ready hf] at h
    exact .inr ⟨rfl, (Host.Outcome.next.inj h).symm⟩

/-- The four ways a step gives a next state: no event, RST in either form, a legal frame, an illegal one. -/
theorem step_cases {s t : State} (h : step s = .next t) :
    (s.inbox = [] ∧ t = s) ∨
    (∃ ev rest, s.inbox = ev :: rest ∧ (ev = .rst ∨ ∃ f, ev = .rstDuring f) ∧ t = rst { s with inbox := rest }) ∨
    (∃ f rest i, s.inbox = .frame f :: rest ∧ decode f = .ok i ∧ exec i { s with inbox := rest } = .next t) ∨
    (∃ f rest e, s.inbox = .frame f :: rest ∧ decode f = .error e ∧
      illegalCommand { s with inbox := rest } = .next t) := by
  cases hi : s.inbox with
  | nil =>
    rw [step_idle hi] at h
    exact .inl ⟨rfl, (Host.Outcome.next.inj h).symm⟩
  | cons ev rest =>
    cases ev with
    | rst =>
      simp only [step, takeEvent, hi, Host.Outcome.next.injEq] at h
      exact .inr (.inl ⟨_, rest, rfl, .inl rfl, h.symm⟩)
    | rstDuring f =>
      simp only [step, takeEvent, hi, Host.Outcome.next.injEq] at h
      exact .inr (.inl ⟨_, rest, rfl, .inr ⟨f, rfl⟩, h.symm⟩)
    | frame f =>
      cases hd : decode f with
      | ok i =>
        simp only [step, takeEvent, hi, hd] at h
        exact .inr (.inr (.inl ⟨f, rest, i, rfl, hd, h⟩))
      | error e =>
        rw [step_illegal hi hd] at h
        exact .inr (.inr (.inr ⟨f, rest, e, rfl, hd, h⟩))

theorem packerInv_reset : PackerInv Packer.reset where
  wc_le := by decide
  cnt_le := by decide
  idle_zero _ := ⟨rfl, rfl, rfl⟩
  open_len := nofun
  done_len := nofun
  acc_lt := by decide
  buf_wf := Memory.wf_reset_packer
  buf_below := rfl
  buf_listed i hi := absurd hi (Nat.not_lt_zero i)

theorem unpackerInv_reset : UnpackerInv Unpacker.reset where
  unbound_zero _ := ⟨rfl, rfl⟩
  pos_le := by decide
  pos_multiple := rfl
  buf_wf := Memory.wf_reset_unpacker
  buf_below := rfl
  buf_listed k hk := absurd hk (Nat.not_lt_zero k)

end Sys2Proof.Machine

namespace Sys2Proof
open Machine

/-- Settles O7. -/
theorem stepWithoutEventChangesNothing : Obligations.StepWithoutEventChangesNothing :=
  fun _ => step_idle

/-- Settles O8: every value is the one `State.reset` is written with. -/
theorem resetLeavesTheListedValues : Obligations.ResetLeavesTheListedValues := by
  unfold Obligations.ResetLeavesTheListedValues
  decide

/-- Settles O17: each unit meets its own part. -/
theorem resetMeetsTheInvariant : Obligations.ResetMeetsTheInvariant :=
  ⟨packerInv_reset, unpackerInv_reset⟩

end Sys2Proof
end

/-! PROOFS. Several blocks side by side (spec/10_state.md R32, spec/60_exceptions.md R176). -/
section
namespace Sys2Proof.Machine

/-- The step at position `k` does the same to every system whose state at `k` is the same: nothing, or it puts one state
at position `k`. -/
theorem systemStep_depends_on_own_state (k : Nat) (sys : System) :
    (∀ sys' : System, sys'[k]? = sys[k]? → systemStep k sys' = sys') ∨
    ∃ t, ∀ sys' : System, sys'[k]? = sys[k]? → systemStep k sys' = sys'.set k t := by
  cases hk : sys[k]? with
  | none => exact .inl fun sys' h => by simp only [systemStep, h]
  | some s =>
    cases hs : step s with
    | next t => exact .inr ⟨t, fun sys' h => by simp only [systemStep, h, hs]⟩
    | fault f => exact .inl fun sys' h => by simp only [systemStep, h, hs]
    | refused r => exact .inl fun sys' h => by simp only [systemStep, h, hs]

theorem systemStep_getElem?_of_ne {k j : Nat} (sys : System) (h : j ≠ k) : (systemStep k sys)[j]? = sys[j]? := by
  obtain hk | ⟨t, hk⟩ := systemStep_depends_on_own_state k sys
  · rw [hk sys rfl]
  · rw [hk sys rfl, List.getElem?_set_ne h.symm]

theorem systemStep_comm {k j : Nat} (sys : System) (h : j ≠ k) :
    systemStep k (systemStep j sys) = systemStep j (systemStep k sys) := by
  have hkj := systemStep_getElem?_of_ne sys h.symm
  have hjk := systemStep_getElem?_of_ne sys h
  obtain hk | ⟨t, hk⟩ := systemStep_depends_on_own_state k sys
  · rw [hk _ hkj, hk sys rfl]
  · obtain hj | ⟨u, hj⟩ := systemStep_depends_on_own_state j sys
    · rw [hj _ hjk, hj sys rfl]
    · rw [hk _ hkj, hj _ hjk, hk sys rfl, hj sys rfl, List.set_comm _ _ h]

end Sys2Proof.Machine

namespace Sys2Proof
open Machine

/-- Settles O52: the step at a position reads and replaces the state at that position alone. -/
theorem instancesDoNotInterfere : Obligations.InstancesDoNotInterfere :=
  ⟨fun _ _ sys => systemStep_getElem?_of_ne sys, fun _ _ sys => systemStep_comm sys⟩

end Sys2Proof
end

/-! PROOFS. The packer's pushes as one list of bytes: a write stores the whole bytes of PK.ACC ‖ v and keeps the bits
left over (spec/41_bitpacker.md R91). -/
section
namespace Sys2Proof.Machine

/-- A packer with the bytes of a list pushed, in order. -/
def Packer.pushedAll (p : Packer) (bs : List Byte) : Packer := bs.foldl Packer.pushed p

section
variable (p : Packer) (b : Byte) (bs : List Byte)
@[simp] theorem pushedAll_nil : p.pushedAll [] = p := rfl
@[simp] theorem pushedAll_cons : p.pushedAll (b :: bs) = (p.pushed b).pushedAll bs := rfl

/-- Pushes write the buffer and PK.LEN alone. -/
theorem pushedAll_eq : p.pushedAll bs = { p with buf := (p.pushedAll bs).buf, len := (p.pushedAll bs).len } := by
  induction bs generalizing p with
  | nil => rfl
  | cons b bs ih => exact ih (p.pushed b)

@[simp] theorem pushedAll_phase : (p.pushedAll bs).phase = p.phase := by rw [pushedAll_eq]
@[simp] theorem pushedAll_wc : (p.pushedAll bs).wc = p.wc := by rw [pushedAll_eq]
@[simp] theorem pushedAll_cnt : (p.pushedAll bs).cnt = p.cnt := by rw [pushedAll_eq]
end

section
variable {p : Packer} {bs : List Byte}

theorem pushedAll_len (h : p.len.toNat + bs.length ≤ Config.pkBufBytes) :
    (p.pushedAll bs).len.toNat = p.len.toNat + bs.length := by
  induction bs generalizing p with
  | nil => rfl
  | cons b bs ih =>
    rw [List.length_cons] at h
    have hlen : (p.pushed b).len.toNat = p.len.toNat + 1 := pushed_len p b (by omega)
    rw [pushedAll_cons, ih (by omega), hlen, List.length_cons]
    omega

/-- The bytes pushed stand from PK.LEN on; every other index reads as before. -/
theorem pushedAll_read (h : p.len.toNat + bs.length ≤ Config.pkBufBytes) (a : Nat) :
    Memory.read (p.pushedAll bs).buf a =
      if p.len.toNat ≤ a ∧ a < p.len.toNat + bs.length then bs[a - p.len.toNat]? else Memory.read p.buf a := by
  induction bs generalizing p with
  | nil => rw [if_neg (by simp), pushedAll_nil]
  | cons b bs ih =>
    rw [List.length_cons] at h
    have hlen : (p.pushed b).len.toNat = p.len.toNat + 1 := pushed_len p b (by omega)
    rw [pushedAll_cons, ih (by omega), hlen, List.length_cons, pushed_buf, Memory.read_write]
    by_cases ha : p.len.toNat = a
    · subst ha
      simp
    · by_cases hin : p.len.toNat + 1 ≤ a ∧ a < p.len.toNat + 1 + bs.length
      · have hsub : a - p.len.toNat = a - (p.len.toNat + 1) + 1 := by omega
        rw [if_pos hin, if_pos (by omega), hsub, List.getElem?_cons_succ]
      · rw [if_neg hin, if_neg ha, if_neg (by omega)]

theorem pushedAll_buf_wf (h : Memory.wf p.buf = true) : Memory.wf (p.pushedAll bs).buf = true := by
  induction bs generalizing p with
  | nil => exact h
  | cons b bs ih => exact ih (Memory.wf_write _ b h)

theorem pushedAll_buf_below {size : Nat} (h : Memory.below size p.buf = true) (hsize : size ≤ Config.pkBufBytes)
    (hroom : p.len.toNat + bs.length ≤ size) : Memory.below size (p.pushedAll bs).buf = true := by
  induction bs generalizing p with
  | nil => exact h
  | cons b bs ih =>
    rw [List.length_cons] at hroom
    have hlen : (p.pushed b).len.toNat = p.len.toNat + 1 := pushed_len p b (by omega)
    exact ih (Memory.below_write b h (by omega)) (by omega)

end

/-- W = PK.ACC ‖ v, the PK.NACC + 11 bits a write has in hand (R91). -/
def bitsInHand (v : Group) (p : Packer) : Nat := p.acc.toNat * 2 ^ 11 + v.toNat

/-- Whole byte `j` of W, from its top. -/
def storedByte (v : Group) (p : Packer) (j : Nat) : Byte :=
  BitVec.ofNat 8 (bitsInHand v p / 2 ^ (p.nacc.toNat + 11 - 8 * (j + 1)))

/-- The whole bytes of W, in the order they are pushed. -/
def storedBytes (v : Group) (p : Packer) : List Byte := (List.range ((p.nacc.toNat + 11) / 8)).map (storedByte v p)

@[simp] theorem storedBytes_length (v : Group) (p : Packer) :
    (storedBytes v p).length = (p.nacc.toNat + 11) / 8 := by simp [storedBytes]

theorem storedBytes_getElem? (v : Group) (p : Packer) {j : Nat} (h : j < (p.nacc.toNat + 11) / 8) :
    (storedBytes v p)[j]? = some (storedByte v p j) := by simp [storedBytes, h]

/-- Step A's byte is the first of W. -/
theorem partialByte_eq_storedByte (v : Group) (p : Packer) : partialByte v p = storedByte v p 0 := by
  have hn : p.nacc.toNat < 8 := p.nacc.isLt
  have hrem : 11 - (8 - p.nacc.toNat) = p.nacc.toNat + 3 := by omega
  have hrem' : p.nacc.toNat + 11 - 8 * (0 + 1) = p.nacc.toNat + 3 := by omega
  have hpow : 2 ^ 11 = 2 ^ (8 - p.nacc.toNat) * 2 ^ (p.nacc.toNat + 3) := by
    rw [← Nat.pow_add]; congr 1; omega
  have hv : v.toNat / 2 ^ (p.nacc.toNat + 3) < 2 ^ (8 - p.nacc.toNat) :=
    Nat.div_lt_of_lt_mul (by rw [Nat.mul_comm, ← hpow]; exact v.isLt)
  have hdiv : bitsInHand v p / 2 ^ (p.nacc.toNat + 3) =
      p.acc.toNat * 2 ^ (8 - p.nacc.toNat) + v.toNat / 2 ^ (p.nacc.toNat + 3) := by
    rw [bitsInHand, hpow, ← Nat.mul_assoc, Nat.add_comm, Nat.add_mul_div_right _ _ (Nat.two_pow_pos _), Nat.add_comm]
  rw [partialByte, storedByte, hrem, hrem', hdiv, Nat.shiftRight_eq_div_pow, ← Nat.shiftLeft_add_eq_or_of_lt hv,
    Nat.shiftLeft_eq]

/-- A byte that lies within `v` is a byte of W. -/
theorem ofNat_shiftRight_eq_bitsInHand (v : Group) (p : Packer) {k : Nat} (h : k ≤ 3) :
    BitVec.ofNat 8 (v.toNat >>> k) = BitVec.ofNat 8 (bitsInHand v p / 2 ^ k) := by
  have hpow : 2 ^ 11 = 2 ^ (3 - k) * 2 ^ 8 * 2 ^ k := by
    rw [← Nat.pow_add, ← Nat.pow_add]; congr 1; omega
  have hdiv : bitsInHand v p / 2 ^ k = v.toNat / 2 ^ k + p.acc.toNat * 2 ^ (3 - k) * 2 ^ 8 := by
    rw [bitsInHand, hpow, ← Nat.mul_assoc, ← Nat.mul_assoc, Nat.add_comm,
      Nat.add_mul_div_right _ _ (Nat.two_pow_pos _)]
  apply BitVec.eq_of_toNat_eq
  rw [BitVec.toNat_ofNat, BitVec.toNat_ofNat, hdiv, Nat.add_mul_mod_self_right, Nat.shiftRight_eq_div_pow]

/-- The bits of W left over lie within `v`. -/
theorem bitsInHand_mod (v : Group) (p : Packer) {k : Nat} (h : k ≤ 11) : bitsInHand v p % 2 ^ k = v.toNat % 2 ^ k := by
  have hpow : 2 ^ 11 = 2 ^ (11 - k) * 2 ^ k := by rw [← Nat.pow_add]; congr 1; omega
  rw [bitsInHand, hpow, ← Nat.mul_assoc, Nat.add_comm, Nat.add_mul_mod_self_right]

/-- A write after its checks: the whole bytes of W are stored, the bits left over are kept, and the count rises. -/
def Packer.appended (p : Packer) (v : Group) : Packer :=
  { p.pushedAll (storedBytes v p) with
    acc := BitVec.ofNat 7 (bitsInHand v p % 2 ^ ((p.nacc.toNat + 11) % 8))
    nacc := BitVec.ofNat 3 ((p.nacc.toNat + 11) % 8)
    cnt := p.cnt + 1 }

/-- Step C on a packer whose residue is empty when no bit is left over. -/
theorem keepRemainder_eq {v : Group} {p : Packer} {rem : Nat} (h : rem = 0 → p.acc = 0#7 ∧ p.nacc = 0#3) :
    keepRemainder v p rem =
      { p with acc := BitVec.ofNat 7 (v.toNat % 2 ^ rem), nacc := BitVec.ofNat 3 rem } := by
  unfold keepRemainder
  by_cases hrem : 0 < rem
  · rw [if_pos hrem]
  · obtain rfl : rem = 0 := by omega
    obtain ⟨hacc, hnacc⟩ := h rfl
    rw [if_neg hrem, Nat.pow_zero, Nat.mod_one]
    cases p
    subst hacc hnacc
    rfl

/-- There is room for two bytes if each of two pushes has room. -/
theorem room_for_two_iff (p : Packer) (b : Byte) :
    p.len.toNat + 2 ≤ Config.pkBufBytes ↔
      p.len.toNat < Config.pkBufBytes ∧ (p.pushed b).len.toNat < Config.pkBufBytes := by
  constructor
  · intro h
    have hlt : p.len.toNat < Config.pkBufBytes := by omega
    rw [pushed_len p b hlt]
    exact ⟨hlt, h⟩
  · rintro ⟨hlt, h⟩
    rw [pushed_len p b hlt] at h
    omega

/-- The three steps push the whole bytes of W: one in step B when PK.NACC is 0, one in step A when it is 1 to 4, and one
in each when it is 5 to 7. -/
theorem append11_ok_iff_appended {v : Group} {p q : Packer} :
    append11 v p = .ok q ↔ p.len.toNat + (p.nacc.toNat + 11) / 8 ≤ Config.pkBufBytes ∧ q = p.appended v := by
  have hn : p.nacc.toNat < 8 := p.nacc.isLt
  have hA : 11 - (8 - p.nacc.toNat) = p.nacc.toNat + 3 := by omega
  rw [append11_ok_iff, Packer.appended, bitsInHand_mod v p (by omega)]
  obtain h0 | h4 | h7 : p.nacc.toNat = 0 ∨ (0 < p.nacc.toNat ∧ p.nacc.toNat + 3 < 8) ∨
    (0 < p.nacc.toNat ∧ 8 ≤ p.nacc.toNat + 3) := by omega
  · have hbytes : storedBytes v p = [BitVec.ofNat 8 (v.toNat >>> 3)] := by
      simp [storedBytes, storedByte, h0, ofNat_shiftRight_eq_bitsInHand v p]
    simp [fillPartial_ok_iff, wholeBytes_ok_iff, h0, hbytes, keepRemainder_eq]
  · have hbyteCount : (p.nacc.toNat + 11) / 8 = 1 := by omega
    have hleft : (p.nacc.toNat + 11) % 8 = p.nacc.toNat + 3 := by omega
    have hbytes : storedBytes v p = [partialByte v p] := by
      simp [storedBytes, hbyteCount, partialByte_eq_storedByte]
    simp [fillPartial_ok_iff, wholeBytes_ok_iff, h4, Nat.ne_of_gt h4.1, Nat.not_le_of_lt h4.2, hA, hbyteCount, hleft,
      hbytes, keepRemainder_eq]
  · have hbyteCount : (p.nacc.toNat + 11) / 8 = 2 := by omega
    have hleft : (p.nacc.toNat + 11) % 8 = p.nacc.toNat - 5 := by omega
    have hbytes : storedBytes v p = [partialByte v p, BitVec.ofNat 8 (v.toNat >>> (p.nacc.toNat - 5))] := by
      have hsecond : p.nacc.toNat + 11 - 8 * 2 = p.nacc.toNat - 5 := by omega
      rw [ofNat_shiftRight_eq_bitsInHand v p (by omega), partialByte_eq_storedByte, storedBytes, hbyteCount, ← hsecond]
      rfl
    simp [fillPartial_ok_iff, wholeBytes_ok_iff, h7, Nat.ne_of_gt h7.1, Nat.not_lt_of_le h7.2, hA, hbyteCount, hleft,
      hbytes, keepRemainder_eq, room_for_two_iff p (partialByte v p), and_assoc, Packer.pushed]

end Sys2Proof.Machine
end

/-! PROOFS. The invariant is kept by every step (spec/10_state.md R12 to R17, R20, R21, spec/41_bitpacker.md R96). -/
section
namespace Sys2Proof.Machine

section
variable (p : Packer) (v : Group)
@[simp] theorem appended_phase : (p.appended v).phase = p.phase := pushedAll_phase p _
@[simp] theorem appended_wc : (p.appended v).wc = p.wc := pushedAll_wc p _
@[simp] theorem appended_cnt : (p.appended v).cnt = p.cnt + 1 := rfl

/-- A packer below its declared count has room in PK.CNT. -/
theorem appended_cnt_toNat (h : p.cnt.toNat < p.wc.toNat) : (p.appended v).cnt.toNat = p.cnt.toNat + 1 := by
  rw [appended_cnt]
  bv_omega

theorem appended_nacc : (p.appended v).nacc.toNat = (p.nacc.toNat + 11) % 8 := by
  rw [Packer.appended, BitVec.toNat_ofNat, Nat.mod_eq_of_lt (by omega)]

theorem appended_acc : (p.appended v).acc.toNat = bitsInHand v p % 2 ^ ((p.nacc.toNat + 11) % 8) := by
  have hlt : bitsInHand v p % 2 ^ ((p.nacc.toNat + 11) % 8) < 2 ^ 7 :=
    Nat.lt_of_lt_of_le (Nat.mod_lt _ (Nat.two_pow_pos _)) (Nat.pow_le_pow_right (by decide) (by omega))
  rw [Packer.appended, BitVec.toNat_ofNat, Nat.mod_eq_of_lt hlt]
end

section
variable {p : Packer} (v : Group) (h : p.len.toNat + (p.nacc.toNat + 11) / 8 ≤ Config.pkBufBytes)
include h

theorem appended_len : (p.appended v).len.toNat = p.len.toNat + (p.nacc.toNat + 11) / 8 := by
  rw [← storedBytes_length v p] at h ⊢
  exact pushedAll_len h

/-- The whole bytes of W stand from PK.LEN on; every other index reads as before. -/
theorem appended_read (a : Nat) :
    Memory.read (p.appended v).buf a =
      if p.len.toNat ≤ a ∧ a < p.len.toNat + (p.nacc.toNat + 11) / 8 then some (storedByte v p (a - p.len.toNat))
      else Memory.read p.buf a := by
  rw [← storedBytes_length v p] at h
  refine (pushedAll_read h a).trans ?_
  rw [storedBytes_length]
  by_cases ha : p.len.toNat ≤ a ∧ a < p.len.toNat + (p.nacc.toNat + 11) / 8
  · rw [if_pos ha, if_pos ha, storedBytes_getElem? v p (by omega)]
  · rw [if_neg ha, if_neg ha]

end

/-- A completed write, all in one: the checks it passed, the room it had, the packer it leaves. -/
theorem packerWrite11_ok_iff_appended {v : Group} {p q : Packer} :
    packerWrite11 v p = .ok q ↔ p.phase = .opened ∧ p.cnt.toNat < p.wc.toNat ∧
      p.len.toNat + (p.nacc.toNat + 11) / 8 ≤ Config.pkBufBytes ∧ q = p.appended v := by
  rw [packerWrite11_ok_iff, append11_ok_iff_appended]

/-! ### The invariant -/

theorem packerInv_packerInit {wc : BitVec 11} {p q : Packer} (h : PackerInv p) (hq : packerInit wc p = .ok q) :
    PackerInv q := by
  obtain ⟨hwc, rfl⟩ := packerInit_ok_iff.mp hq
  have hcap : Config.pkMaxWc = 24 := rfl
  exact
    { wc_le := by
        rw [BitVec.toNat_ofNat, Nat.mod_eq_of_lt (by omega)]
        exact hwc
      cnt_le := Nat.zero_le _
      idle_zero := nofun
      open_len := fun _ => by simp
      done_len := nofun
      acc_lt := Nat.two_pow_pos _
      buf_wf := h.buf_wf
      buf_below := h.buf_below
      buf_listed := fun i hi => absurd hi (Nat.not_lt_zero i) }

theorem packerInv_packerWrite11 {v : Group} {p q : Packer} (h : PackerInv p) (hq : packerWrite11 v p = .ok q) :
    PackerInv q := by
  obtain ⟨hopen, hcnt, hroom, rfl⟩ := packerWrite11_ok_iff_appended.mp hq
  obtain ⟨hlen, hnacc⟩ := h.open_len hopen
  have hwc : p.wc.toNat ≤ 24 := h.wc_le
  have hcnt' := appended_cnt_toNat p v hcnt
  have hlen' := appended_len v hroom
  exact
    { wc_le := by rw [appended_wc]; exact h.wc_le
      cnt_le := by rw [appended_wc, hcnt']; exact hcnt
      idle_zero := by rw [appended_phase, hopen]; nofun
      open_len := fun _ => by rw [hcnt', hlen', appended_nacc]; omega
      done_len := by rw [appended_phase, hopen]; nofun
      acc_lt := by
        rw [appended_acc, appended_nacc]
        exact Nat.mod_lt _ (Nat.two_pow_pos _)
      buf_wf := pushedAll_buf_wf h.buf_wf
      buf_below := pushedAll_buf_below h.buf_below (by decide) (by rw [storedBytes_length]; omega)
      buf_listed := fun i hi => by
        rw [appended_read v hroom]
        split
        · rfl
        · exact h.buf_listed i (by omega) }

theorem packerInv_packerFinish {align : Config.FinalAlign} {p q : Packer} (h : PackerInv p)
    (hq : packerFinish align p = .ok q) : PackerInv q := by
  obtain ⟨hopen, ⟨hnone, rfl⟩ | ⟨hsome, hroom, rfl⟩⟩ := packerFinish_ok_iff.mp hq
  all_goals
    obtain ⟨hlen, hnacc⟩ := h.open_len hopen
    have hwc : p.wc.toNat ≤ 24 := h.wc_le
    have hcnt := h.cnt_le
  · exact
      { h with
        idle_zero := nofun
        open_len := nofun
        done_len := fun _ => ⟨by show p.len.toNat = (11 * p.cnt.toNat + 7) / 8; omega,
          BitVec.eq_of_toNat_eq hnone⟩ }
  · have hlen' := pushed_len p (finalByte align p) hroom
    exact
      { wc_le := h.wc_le
        cnt_le := h.cnt_le
        idle_zero := nofun
        open_len := nofun
        done_len := fun _ => ⟨by
          show (p.pushed (finalByte align p)).len.toNat = (11 * p.cnt.toNat + 7) / 8
          omega, rfl⟩
        acc_lt := Nat.two_pow_pos _
        buf_wf := Memory.wf_write _ _ h.buf_wf
        buf_below := Memory.below_write _ h.buf_below (by omega)
        buf_listed := fun i hi => by
          have hi' : i < p.len.toNat + 1 := hlen' ▸ hi
          rw [pushed_buf, Memory.read_write]
          split
          · rfl
          · exact h.buf_listed i (by omega) }

/-- The length of a slice that a frame can state fits UP.LEN. -/
theorem unpackerInit_len {slice : List Byte} (u : Unpacker) (h : slice.length ≤ Config.upCap) :
    (unpackerInit slice u).len.toNat = slice.length := by
  have hcap : Config.upCap = 2047 := rfl
  rw [unpackerInit, BitVec.toNat_ofNat, Nat.mod_eq_of_lt (by omega)]

theorem unpackerInv_unpackerInit {slice : List Byte} {u : Unpacker} (h : UnpackerInv u)
    (hs : slice.length ≤ Config.upCap) : UnpackerInv (unpackerInit slice u) where
  unbound_zero := nofun
  pos_le := Nat.zero_le _
  pos_multiple := rfl
  buf_wf := Memory.wf_writeAll 0 slice h.buf_wf
  buf_below := Memory.below_writeAll 0 slice h.buf_below (by omega)
  buf_listed k hk := by
    rw [unpackerInit_len u hs] at hk
    rw [unpackerInit, Memory.read_writeAll, if_pos (by omega), Option.isSome_some]

theorem unpackerInv_unpackerRead11 {u w : Unpacker} {v : Group} (h : UnpackerInv u)
    (hr : unpackerRead11 u = .ok (v, w)) : UnpackerInv w := by
  obtain ⟨hbound, hfits, -, rfl⟩ := unpackerRead11_ok_iff.mp hr
  have hlen := u.len.isLt
  have hpos : (u.pos + 11#14).toNat = u.pos.toNat + 11 := by
    rw [BitVec.toNat_add, BitVec.toNat_ofNat, Nat.mod_eq_of_lt (a := 11) (by decide), Nat.mod_eq_of_lt (by omega)]
  have hmult := h.pos_multiple
  exact
    { h with
      unbound_zero := by rw [hbound]; nofun
      pos_le := by rw [hpos]; exact hfits
      pos_multiple := by rw [hpos]; omega }

/-- A command that does not complete leaves both units and the queue of events; one that completes has its effect. -/
theorem exec_unchanged_or_effect {i : Instr} {s t : State} (h : exec i s = .next t) :
    (t.pk = s.pk ∧ t.up = s.up ∧ t.inbox = s.inbox) ∨ ∃ u r, Effect i s u r ∧ t = respond r u := by
  obtain ⟨c, -, rfl⟩ | ⟨-, ⟨e, rfl⟩ | ⟨c, rfl⟩ | h⟩ := exec_cases h
  · exact .inl ⟨rfl, rfl, rfl⟩
  · exact .inl ⟨rfl, rfl, rfl⟩
  · exact .inl ⟨rfl, rfl, rfl⟩
  · exact .inr h

theorem inv_of_effect {i : Instr} {s u : State} {r : Response} (hs : s.Inv) (h : Effect i s u r) : u.Inv := by
  cases i with
  | pkInit wc =>
    obtain ⟨p, hp, rfl, -⟩ := h
    exact ⟨packerInv_packerInit hs.packer hp, hs.unpacker⟩
  | pkWrite11 v =>
    obtain ⟨p, hp, rfl, -⟩ := h
    exact ⟨packerInv_packerWrite11 hs.packer hp, hs.unpacker⟩
  | pkFinish =>
    obtain ⟨p, hp, rfl, -⟩ := h
    exact ⟨packerInv_packerFinish hs.packer hp, hs.unpacker⟩
  | pkTake =>
    obtain ⟨bytes, -, rfl, -⟩ := h
    exact hs
  | upInit slice =>
    obtain ⟨hlen, rfl, -⟩ := h
    exact ⟨hs.packer, unpackerInv_unpackerInit hs.unpacker hlen⟩
  | upRead11 =>
    obtain ⟨v, w, hw, rfl, -⟩ := h
    exact ⟨hs.packer, unpackerInv_unpackerRead11 hs.unpacker hw⟩
  | mnEncode entropy =>
    obtain ⟨g, -, rfl, -⟩ := h
    exact hs
  | mnDecode tokens =>
    obtain ⟨g, entropy, -, rfl, -⟩ := h
    exact hs

/-- The invariant speaks of the two units alone. -/
theorem inv_of_units_eq {s t : State} (hs : s.Inv) (hpk : t.pk = s.pk) (hup : t.up = s.up) : t.Inv :=
  ⟨hpk ▸ hs.packer, hup ▸ hs.unpacker⟩

theorem inv_with_inbox {s : State} (hs : s.Inv) (rest : List HostEvent) : State.Inv { s with inbox := rest } :=
  inv_of_units_eq hs rfl rfl

theorem exec_keeps_inv {i : Instr} {s t : State} (hs : s.Inv) (h : exec i s = .next t) : t.Inv := by
  obtain ⟨hpk, hup, -⟩ | ⟨u, r, hu, rfl⟩ := exec_unchanged_or_effect h
  · exact inv_of_units_eq hs hpk hup
  · exact inv_of_units_eq (inv_of_effect hs hu) rfl rfl

theorem illegalCommand_keeps_inv {s t : State} (hs : s.Inv) (h : illegalCommand s = .next t) : t.Inv := by
  obtain ⟨c, -, rfl⟩ | ⟨-, rfl⟩ := illegalCommand_cases h
  · exact inv_of_units_eq hs rfl rfl
  · exact inv_of_units_eq hs rfl rfl

theorem step_keeps_inv {s t : State} (hs : s.Inv) (h : step s = .next t) : t.Inv := by
  obtain ⟨-, rfl⟩ | ⟨ev, rest, -, -, rfl⟩ | ⟨f, rest, i, -, -, he⟩ | ⟨f, rest, e, -, -, he⟩ := step_cases h
  · exact hs
  · exact ⟨packerInv_reset, unpackerInv_reset⟩
  · exact exec_keeps_inv (inv_with_inbox hs rest) he
  · exact illegalCommand_keeps_inv (inv_with_inbox hs rest) he

end Sys2Proof.Machine

namespace Sys2Proof
open Machine

/-- Settles O18: RST restores the reset values, a command that does not complete leaves both units, and each completed
operation keeps its unit's part of the invariant. -/
theorem stepKeepsTheInvariant : Obligations.StepKeepsTheInvariant :=
  fun _ _ => step_keeps_inv

end Sys2Proof
end

/-! PROOFS. What each command writes and what it leaves unchanged (spec/10_state.md R10, R11, R14, R20,
spec/20_memory.md R41). -/
section
namespace Sys2Proof.Machine

/-- A write stores its bytes from PK.LEN on. -/
theorem packerWrite11_read_of_outside {v : Group} {p q : Packer} (h : packerWrite11 v p = .ok q) {a : Nat}
    (ha : a < p.len.toNat ∨ p.len.toNat + (p.nacc.toNat + 11) / 8 ≤ a) :
    Memory.read q.buf a = Memory.read p.buf a := by
  obtain ⟨-, -, hroom, rfl⟩ := packerWrite11_ok_iff_appended.mp h
  rw [appended_read v hroom, if_neg (by omega)]

/-- A finish stores one byte at PK.LEN if there is a residue. -/
theorem packerFinish_read_of_outside {align : Config.FinalAlign} {p q : Packer} (h : packerFinish align p = .ok q)
    {a : Nat} (ha : a < p.len.toNat ∨ p.len.toNat + (if 0 < p.nacc.toNat then 1 else 0) ≤ a) :
    Memory.read q.buf a = Memory.read p.buf a := by
  obtain ⟨-, ⟨-, rfl⟩ | ⟨hsome, -, rfl⟩⟩ := packerFinish_ok_iff.mp h
  · rfl
  · rw [if_pos hsome] at ha
    exact Memory.read_write_other p.buf _ (by omega)

theorem packerFinish_registers {align : Config.FinalAlign} {p q : Packer} (h : packerFinish align p = .ok q) :
    p.phase = .opened ∧ q.phase = .done ∧ q.wc = p.wc ∧ q.cnt = p.cnt := by
  obtain ⟨hopen, ⟨-, rfl⟩ | ⟨-, -, rfl⟩⟩ := packerFinish_ok_iff.mp h
  · exact ⟨hopen, rfl, rfl, rfl⟩
  · exact ⟨hopen, rfl, rfl, rfl⟩

theorem exec_pkInit_frame {wc : BitVec 11} {s t : State} (h : exec (.pkInit wc) s = .next t) :
    t.up = s.up ∧ t.inbox = s.inbox ∧ t.pk.buf = s.pk.buf := by
  obtain ⟨hpk, hup, hin⟩ | ⟨u, r, ⟨p, hp, rfl, -⟩, rfl⟩ := exec_unchanged_or_effect h
  · exact ⟨hup, hin, congrArg Packer.buf hpk⟩
  · obtain ⟨-, rfl⟩ := packerInit_ok_iff.mp hp
    exact ⟨rfl, rfl, rfl⟩

theorem exec_pkWrite11_frame {v : Group} {s t : State} (h : exec (.pkWrite11 v) s = .next t) :
    t.up = s.up ∧ t.inbox = s.inbox ∧ t.pk.phase = s.pk.phase ∧ t.pk.wc = s.pk.wc ∧
    ∀ a, (a < s.pk.len.toNat ∨ s.pk.len.toNat + (s.pk.nacc.toNat + 11) / 8 ≤ a) →
      Memory.read t.pk.buf a = Memory.read s.pk.buf a := by
  obtain ⟨hpk, hup, hin⟩ | ⟨u, r, ⟨p, hp, rfl, -⟩, rfl⟩ := exec_unchanged_or_effect h
  · rw [hpk]
    exact ⟨hup, hin, rfl, rfl, fun _ _ => rfl⟩
  · have hread := fun a => packerWrite11_read_of_outside hp (a := a)
    obtain ⟨-, -, -, rfl⟩ := packerWrite11_ok_iff_appended.mp hp
    exact ⟨rfl, rfl, appended_phase _ _, appended_wc _ _, hread⟩

theorem exec_pkFinish_frame {s t : State} (h : exec .pkFinish s = .next t) :
    t.up = s.up ∧ t.inbox = s.inbox ∧ t.pk.wc = s.pk.wc ∧ t.pk.cnt = s.pk.cnt ∧
    ∀ a, (a < s.pk.len.toNat ∨ s.pk.len.toNat + (if 0 < s.pk.nacc.toNat then 1 else 0) ≤ a) →
      Memory.read t.pk.buf a = Memory.read s.pk.buf a := by
  obtain ⟨hpk, hup, hin⟩ | ⟨u, r, ⟨p, hp, rfl, -⟩, rfl⟩ := exec_unchanged_or_effect h
  · rw [hpk]
    exact ⟨hup, hin, rfl, rfl, fun _ _ => rfl⟩
  · obtain ⟨-, -, hwc, hcnt⟩ := packerFinish_registers hp
    exact ⟨rfl, rfl, hwc, hcnt, fun a => packerFinish_read_of_outside hp⟩

/-- A command whose completed operation writes no state. -/
theorem exec_frame_of_effect_eq {i : Instr} {s t : State} (h : exec i s = .next t)
    (hi : ∀ u r, Effect i s u r → u = s) :
    t.pk = s.pk ∧ t.up = s.up ∧ t.inbox = s.inbox := by
  obtain hsame | ⟨u, r, hu, rfl⟩ := exec_unchanged_or_effect h
  · exact hsame
  · obtain rfl := hi u r hu
    exact ⟨rfl, rfl, rfl⟩

theorem exec_pkTake_frame {s t : State} (h : exec .pkTake s = .next t) :
    t.pk = s.pk ∧ t.up = s.up ∧ t.inbox = s.inbox :=
  exec_frame_of_effect_eq h (fun _ _ ⟨_, _, hu, _⟩ => hu)

theorem exec_upInit_frame {slice : List Byte} {s t : State} (h : exec (.upInit slice) s = .next t) :
    t.pk = s.pk ∧ t.inbox = s.inbox ∧ ∀ a, slice.length ≤ a → Memory.read t.up.buf a = Memory.read s.up.buf a := by
  obtain ⟨hpk, hup, hin⟩ | ⟨u, r, ⟨-, rfl, -⟩, rfl⟩ := exec_unchanged_or_effect h
  · rw [hup]
    exact ⟨hpk, hin, fun _ _ => rfl⟩
  · refine ⟨rfl, rfl, fun a ha => ?_⟩
    rw [respond_up, unpackerInit, Memory.read_writeAll, if_neg (by omega)]

theorem exec_upRead11_frame {s t : State} (h : exec .upRead11 s = .next t) :
    t.pk = s.pk ∧ t.inbox = s.inbox ∧ t.up = { s.up with pos := t.up.pos } := by
  obtain ⟨hpk, hup, hin⟩ | ⟨u, r, ⟨v, w, hw, rfl, -⟩, rfl⟩ := exec_unchanged_or_effect h
  · rw [hup]
    exact ⟨hpk, hin, rfl⟩
  · obtain ⟨-, -, -, rfl⟩ := unpackerRead11_ok_iff.mp hw
    exact ⟨rfl, rfl, rfl⟩

theorem exec_mnEncode_frame {entropy : List Byte} {s t : State} (h : exec (.mnEncode entropy) s = .next t) :
    t.pk = s.pk ∧ t.up = s.up ∧ t.inbox = s.inbox :=
  exec_frame_of_effect_eq h (fun _ _ ⟨_, _, hu, _⟩ => hu)

theorem exec_mnDecode_frame {tokens : List Token} {s t : State} (h : exec (.mnDecode tokens) s = .next t) :
    t.pk = s.pk ∧ t.up = s.up ∧ t.inbox = s.inbox :=
  exec_frame_of_effect_eq h (fun _ _ ⟨_, _, _, hu, _⟩ => hu)

/-- PK.INIT moves the phase to OPEN only. -/
theorem exec_pkInit_phase {wc : BitVec 11} {s t : State} (h : exec (.pkInit wc) s = .next t) :
    t.pk.phase = s.pk.phase ∨ t.pk.phase = .opened := by
  obtain ⟨hpk, -, -⟩ | ⟨u, r, ⟨p, hp, rfl, -⟩, rfl⟩ := exec_unchanged_or_effect h
  · exact .inl (congrArg Packer.phase hpk)
  · obtain ⟨-, rfl⟩ := packerInit_ok_iff.mp hp
    exact .inr rfl

/-- PK.FINISH moves the phase from OPEN to DONE only. -/
theorem exec_pkFinish_phase {s t : State} (h : exec .pkFinish s = .next t) :
    t.pk.phase = s.pk.phase ∨ (s.pk.phase = .opened ∧ t.pk.phase = .done) := by
  obtain ⟨hpk, -, -⟩ | ⟨u, r, ⟨p, hp, rfl, -⟩, rfl⟩ := exec_unchanged_or_effect h
  · exact .inl (congrArg Packer.phase hpk)
  · obtain ⟨hopen, hdone, -, -⟩ := packerFinish_registers hp
    exact .inr ⟨hopen, hdone⟩

end Sys2Proof.Machine

namespace Sys2Proof
open Machine

/-- Settles O26: from the frame of each of the four commands. -/
theorem packerCommandsFrame : Obligations.PackerCommandsFrame := by
  refine ⟨fun wc s t h => ?_, fun _ _ _ => exec_pkWrite11_frame, fun _ _ => exec_pkFinish_frame,
    fun _ _ => exec_pkTake_frame⟩
  obtain ⟨hup, hin, hbuf⟩ := exec_pkInit_frame h
  exact ⟨hup, hin, fun a => by rw [hbuf]⟩

/-- Settles O34: from the frame of each of the two commands. -/
theorem unpackerCommandsFrame : Obligations.UnpackerCommandsFrame := by
  refine ⟨fun _ _ _ => exec_upInit_frame, fun s t h => ?_⟩
  obtain ⟨hpk, hin, hup⟩ := exec_upRead11_frame h
  rw [hup]
  exact ⟨hpk, hin, rfl, rfl, fun _ => rfl⟩

/-- Settles O21: the frame of each command leaves an element that is not its own as it was, so a premise that it changed
is false; the phase moves as PK.INIT and PK.FINISH say. -/
theorem elementsAreWrittenByTheirCommandsOnly : Obligations.ElementsAreWrittenByTheirCommandsOnly := by
  intro i s t h
  cases i with
  | pkInit wc =>
    obtain ⟨hup, -, hbuf⟩ := exec_pkInit_frame h
    have hphase := exec_pkInit_phase h
    simpa [hup, hbuf] using hphase.resolve_left
  | pkWrite11 v =>
    obtain ⟨hup, -, hphase, hwc, -⟩ := exec_pkWrite11_frame h
    simp [hup, hphase, hwc]
  | pkFinish =>
    obtain ⟨hup, -, hwc, hcnt, -⟩ := exec_pkFinish_frame h
    have hphase := exec_pkFinish_phase h
    simpa [hup, hwc, hcnt] using hphase.resolve_left
  | pkTake =>
    obtain ⟨hpk, hup, -⟩ := exec_pkTake_frame h
    simp [hpk, hup]
  | upInit slice =>
    obtain ⟨hpk, -, -⟩ := exec_upInit_frame h
    simp [hpk]
  | upRead11 =>
    obtain ⟨hpk, -, hup⟩ := exec_upRead11_frame h
    rw [hup]
    simp [hpk]
  | mnEncode entropy =>
    obtain ⟨hpk, hup, -⟩ := exec_mnEncode_frame h
    simp [hpk, hup]
  | mnDecode tokens =>
    obtain ⟨hpk, hup, -⟩ := exec_mnDecode_frame h
    simp [hpk, hup]

end Sys2Proof
end

/-! PROOFS. Contents that nothing has written are never observed (spec/10_state.md section 6, R31): each operation,
run on two units that differ in such bytes at most, ends the same way, with the same answer, in two such units. -/
section
namespace Sys2Proof.Machine

/-- Two operations end alike: both complete, with results related by `R`, or both stop for the same reason, or both step
outside PK.BUF, which gives no next state. -/
inductive EndsAlike {α : Type} (R : α → α → Prop) : Except Stop α → Except Stop α → Prop
  | ok {a b : α} (h : R a b) : EndsAlike R (.ok a) (.ok b)
  | error (e : Stop) : EndsAlike R (.error e) (.error e)
  | outside (i j : Nat) : EndsAlike R (.error (.outside i)) (.error (.outside j))

/-- Two packers that differ at most in bytes of PK.BUF at or above PK.LEN. -/
def SamePacker (p p' : Packer) : Prop :=
  ∃ m, p' = { p with buf := m } ∧ ∀ i, i < p.len.toNat → p'.byteAt i = p.byteAt i

/-- Two unpackers that differ at most in bytes of UP.BUF at or above UP.LEN. -/
def SameUnpacker (u u' : Unpacker) : Prop :=
  ∃ m, u' = { u with buf := m } ∧ ∀ k, k < u.len.toNat → u'.byteAt k = u.byteAt k

theorem sameButUnwritten_iff {s t : State} :
    SameButUnwritten s t ↔ SamePacker s.pk t.pk ∧ SameUnpacker s.up t.up ∧
      t.fault = s.fault ∧ t.inbox = s.inbox ∧ t.outbox = s.outbox := by
  constructor
  · rintro ⟨hpk, hpkBytes, hup, hupBytes, hrest⟩
    exact ⟨⟨_, hpk, hpkBytes⟩, ⟨_, hup, hupBytes⟩, hrest⟩
  · rintro ⟨⟨m, hpk, hpkBytes⟩, ⟨n, hup, hupBytes⟩, hrest⟩
    exact ⟨by rw [hpk], hpkBytes, by rw [hup], hupBytes, hrest⟩

theorem samePacker_refl (p : Packer) : SamePacker p p := ⟨p.buf, rfl, fun _ _ => rfl⟩

theorem sameUnpacker_refl (u : Unpacker) : SameUnpacker u u := ⟨u.buf, rfl, fun _ _ => rfl⟩

/-! ### The packer -/

theorem push_error {b : Byte} {p : Packer} {e : Stop} (h : push b p = .error e) : ∃ i, e = .outside i := by
  unfold push at h
  split at h
  · cases h
  · exact ⟨_, (Except.error.inj h).symm⟩

theorem fillPartial_error {v : Group} {p : Packer} {e : Stop} (h : fillPartial v p = .error e) :
    ∃ i, e = .outside i := by
  unfold fillPartial at h
  split at h
  · split at h
    · cases h
    · next hpush => exact push_error (Except.error.inj h ▸ hpush)
  · cases h

theorem wholeBytes_error {v : Group} {p : Packer} {rem : Nat} {e : Stop} (h : wholeBytes v p rem = .error e) :
    ∃ i, e = .outside i := by
  unfold wholeBytes at h
  split at h
  · split at h
    · cases h
    · next hpush => exact push_error (Except.error.inj h ▸ hpush)
  · cases h

/-- After its checks a write stops only for an index outside PK.BUF. -/
theorem append11_error {v : Group} {p : Packer} {e : Stop} (h : append11 v p = .error e) : ∃ i, e = .outside i := by
  unfold append11 at h
  split at h
  · next hfill => exact fillPartial_error (Except.error.inj h ▸ hfill)
  · split at h
    · next hwhole => exact wholeBytes_error (Except.error.inj h ▸ hwhole)
    · cases h


theorem byteAt_pushed (p : Packer) (b : Byte) (i : Nat) :
    (p.pushed b).byteAt i = if p.len.toNat = i then b else p.byteAt i := by
  rw [Packer.byteAt, pushed_buf, Memory.read_write]
  split <;> rfl

theorem samePacker_pushed {p p' : Packer} (b : Byte) (h : SamePacker p p') (hroom : p.len.toNat < Config.pkBufBytes) :
    SamePacker (p.pushed b) (p'.pushed b) := by
  obtain ⟨m, rfl, hbytes⟩ := h
  refine ⟨Memory.write m p.len.toNat b, rfl, fun i hi => ?_⟩
  rw [pushed_len p b hroom] at hi
  rw [byteAt_pushed, byteAt_pushed]
  by_cases hlast : p.len.toNat = i
  · rw [if_pos hlast, if_pos hlast]
  · rw [if_neg hlast, if_neg hlast]
    exact hbytes i (by omega)

theorem samePacker_pushedAll {p p' : Packer} (bs : List Byte) (h : SamePacker p p')
    (hroom : p.len.toNat + bs.length ≤ Config.pkBufBytes) : SamePacker (p.pushedAll bs) (p'.pushedAll bs) := by
  induction bs generalizing p p' with
  | nil => exact h
  | cons b bs ih =>
    rw [List.length_cons] at hroom
    have hlt : p.len.toNat < Config.pkBufBytes := by omega
    exact ih (samePacker_pushed b h hlt) (by rw [pushed_len p b hlt]; omega)

theorem push_endsAlike {p p' : Packer} (b : Byte) (h : SamePacker p p') :
    EndsAlike SamePacker (push b p) (push b p') := by
  have hlen : p'.len = p.len := by
    obtain ⟨m, rfl, -⟩ := h
    rfl
  by_cases hroom : p.len.toNat < Config.pkBufBytes
  · rw [push_ok_iff_pushed.mpr ⟨hroom, rfl⟩, push_ok_iff_pushed.mpr ⟨hlen ▸ hroom, rfl⟩]
    exact .ok (samePacker_pushed b h hroom)
  · rw [push, push, hlen, if_neg hroom, if_neg hroom]
    exact .error _

theorem samePacker_appended {p p' : Packer} (v : Group) (h : SamePacker p p')
    (hroom : p.len.toNat + (p.nacc.toNat + 11) / 8 ≤ Config.pkBufBytes) :
    SamePacker (p.appended v) (p'.appended v) := by
  rw [← storedBytes_length v p] at hroom
  obtain ⟨n, hpushed, hbytes⟩ := samePacker_pushedAll (storedBytes v p) h hroom
  obtain ⟨m, rfl, -⟩ := h
  have hstored : storedBytes v { p with buf := m } = storedBytes v p := rfl
  refine ⟨n, ?_, hbytes⟩
  rw [Packer.appended, hstored, hpushed]
  rfl

/-- A write that does not complete after its checks ran out of room. -/
theorem append11_of_no_room {v : Group} {p : Packer}
    (h : ¬ p.len.toNat + (p.nacc.toNat + 11) / 8 ≤ Config.pkBufBytes) : ∃ i, append11 v p = .error (.outside i) := by
  cases ha : append11 v p with
  | ok q => exact absurd (append11_ok_iff_appended.mp ha).1 h
  | error e =>
    obtain ⟨i, rfl⟩ := append11_error ha
    exact ⟨i, rfl⟩

theorem append11_endsAlike {p p' : Packer} (v : Group) (h : SamePacker p p') :
    EndsAlike SamePacker (append11 v p) (append11 v p') := by
  have hroom_iff : p'.len.toNat + (p'.nacc.toNat + 11) / 8 = p.len.toNat + (p.nacc.toNat + 11) / 8 := by
    obtain ⟨m, rfl, -⟩ := h
    rfl
  by_cases hroom : p.len.toNat + (p.nacc.toNat + 11) / 8 ≤ Config.pkBufBytes
  · rw [append11_ok_iff_appended.mpr ⟨hroom, rfl⟩, append11_ok_iff_appended.mpr ⟨hroom_iff ▸ hroom, rfl⟩]
    exact .ok (samePacker_appended v h hroom)
  · obtain ⟨i, hi⟩ := append11_of_no_room (v := v) hroom
    obtain ⟨j, hj⟩ := append11_of_no_room (v := v) (hroom_iff ▸ hroom)
    rw [hi, hj]
    exact .outside i j

theorem packerInit_endsAlike {p p' : Packer} (wc : BitVec 11) (h : SamePacker p p') :
    EndsAlike SamePacker (packerInit wc p) (packerInit wc p') := by
  obtain ⟨m, rfl, -⟩ := h
  unfold packerInit
  split
  · exact .ok ⟨m, rfl, fun i hi => absurd hi (Nat.not_lt_zero i)⟩
  · exact .error _

theorem packerWrite11_endsAlike {p p' : Packer} (v : Group) (h : SamePacker p p') :
    EndsAlike SamePacker (packerWrite11 v p) (packerWrite11 v p') := by
  have happend := append11_endsAlike v h
  obtain ⟨m, rfl, -⟩ := h
  unfold packerWrite11
  split
  · split
    · exact happend
    · exact .error _
  · exact .error _

theorem packerFinish_endsAlike {p p' : Packer} (align : Config.FinalAlign) (h : SamePacker p p') :
    EndsAlike SamePacker (packerFinish align p) (packerFinish align p') := by
  have hpush := push_endsAlike (finalByte align p) h
  obtain ⟨m, rfl, hbytes⟩ := h
  unfold packerFinish
  split
  · split
    · have hbyte : finalByte align { p with buf := m } = finalByte align p := rfl
      rw [hbyte]
      generalize push _ p = x, push _ { p with buf := m } = x' at hpush
      cases hpush with
      | ok h =>
        obtain ⟨n, rfl, hbytes⟩ := h
        exact .ok ⟨n, rfl, hbytes⟩
      | error e => exact .error e
      | outside i j => exact .outside i j
    · exact .ok ⟨m, rfl, hbytes⟩
  · exact .error _

/-- Such packers have the same result. -/
theorem packerTake_eq {p p' : Packer} (h : SamePacker p p') : packerTake p' = packerTake p := by
  obtain ⟨m, rfl, hbytes⟩ := h
  have hresult : Packer.result { p with buf := m } = p.result :=
    List.map_congr_left fun i hi => hbytes i (List.mem_range.mp hi)
  rw [packerTake, packerTake, hresult]

/-! ### The unpacker -/

theorem sameUnpacker_unpackerInit {slice : List Byte} {u u' : Unpacker} (h : SameUnpacker u u')
    (hs : slice.length ≤ Config.upCap) : SameUnpacker (unpackerInit slice u) (unpackerInit slice u') := by
  obtain ⟨m, rfl, -⟩ := h
  refine ⟨Memory.writeAll m 0 slice, rfl, fun k hk => ?_⟩
  rw [unpackerInit_len u hs] at hk
  simp only [Unpacker.byteAt, unpackerInit, Memory.read_writeAll]
  rw [if_pos (by omega), if_pos (by omega)]

/-- A group depends on the bytes that its 11 bits stand in. -/
theorem groupAt_congr {f g : Nat → Byte} {p : Nat} (h : ∀ j, j < 11 → f ((p + j) / 8) = g ((p + j) / 8)) :
    groupAt f p = groupAt g p := by
  have hbits : (List.range 11).map (fun j => streamBit f (p + j)) = (List.range 11).map fun j => streamBit g (p + j) :=
    List.map_congr_left fun j hj => by rw [streamBit, streamBit, h j (List.mem_range.mp hj)]
  rw [groupAt, groupAt, hbits]

/-- Two results of a read: the same group, and such unpackers. -/
def SameRead (x x' : Group × Unpacker) : Prop := x'.1 = x.1 ∧ SameUnpacker x.2 x'.2

theorem unpackerRead11_endsAlike {u u' : Unpacker} (h : SameUnpacker u u') :
    EndsAlike SameRead (unpackerRead11 u) (unpackerRead11 u') := by
  obtain ⟨m, rfl, hbytes⟩ := h
  unfold unpackerRead11
  split
  · split
    · next hfits =>
      have hfits' : u.pos.toNat + 11 ≤ 8 * u.len.toNat := hfits
      exact .ok ⟨groupAt_congr (p := u.pos.toNat) fun j hj => hbytes _ (by omega), m, rfl, hbytes⟩
    · exact .error _
  · exact .error _

/-! ### Commands and the step -/

section
variable {s s' : State} (hs : SameButUnwritten s s')
include hs

theorem respond_same (r : Response) : SameButUnwritten (respond r s) (respond r s') := by
  obtain ⟨hpk, hup, hfault, hin, hout⟩ := sameButUnwritten_iff.mp hs
  exact sameButUnwritten_iff.mpr ⟨hpk, hup, hfault, hin, congrArg (· ++ [r.bytes]) hout⟩

theorem setFault_same (c : Option FaultCode) : SameButUnwritten { s with fault := c } { s' with fault := c } := by
  obtain ⟨hpk, hup, -, hin, hout⟩ := sameButUnwritten_iff.mp hs
  exact sameButUnwritten_iff.mpr ⟨hpk, hup, rfl, hin, hout⟩

theorem setInbox_same (rest : List HostEvent) :
    SameButUnwritten { s with inbox := rest } { s' with inbox := rest } := by
  obtain ⟨hpk, hup, hfault, -, hout⟩ := sameButUnwritten_iff.mp hs
  exact sameButUnwritten_iff.mpr ⟨hpk, hup, hfault, rfl, hout⟩

theorem setPacker_same {p p' : Packer} (h : SamePacker p p') :
    SameButUnwritten { s with pk := p } { s' with pk := p' } := by
  obtain ⟨-, hup, hrest⟩ := sameButUnwritten_iff.mp hs
  exact sameButUnwritten_iff.mpr ⟨h, hup, hrest⟩

theorem setUnpacker_same {u u' : Unpacker} (h : SameUnpacker u u') :
    SameButUnwritten { s with up := u } { s' with up := u' } := by
  obtain ⟨hpk, -, hrest⟩ := sameButUnwritten_iff.mp hs
  exact sameButUnwritten_iff.mpr ⟨hpk, h, hrest⟩

theorem raiseFault_same (c : FaultCode) : SameButUnwritten (raiseFault c s) (raiseFault c s') :=
  respond_same (setFault_same hs (some c)) _

theorem rst_same : SameButUnwritten (rst s) (rst s') := by
  obtain ⟨-, -, -, hin, hout⟩ := sameButUnwritten_iff.mp hs
  exact sameButUnwritten_iff.mpr ⟨samePacker_refl _, sameUnpacker_refl _, rfl, hin, hout⟩

end

/-- A next state of the first outcome is matched by such a next state of the second. -/
def NextAlike (o o' : Host.Outcome State Fault Refusal) : Prop :=
  ∀ t, o = .next t → ∃ t', o' = .next t' ∧ SameButUnwritten t t'

theorem nextAlike_next {t t' : State} (h : SameButUnwritten t t') : NextAlike (.next t) (.next t') := by
  intro u hu
  obtain rfl := Host.Outcome.next.inj hu
  exact ⟨t', rfl, h⟩

/-- Two results of a command's operation: such states, and the same answer. -/
def SameAnswer (x x' : State × Response) : Prop := SameButUnwritten x.1 x'.1 ∧ x'.2 = x.2

section
variable {s s' : State} (hs : SameButUnwritten s s')
include hs

theorem unlessFaulted_nextAlike {o o' : Host.Outcome State Fault Refusal} (h : NextAlike o o') :
    NextAlike (unlessFaulted s o) (unlessFaulted s' o') := by
  obtain ⟨-, -, hfault, -, -⟩ := sameButUnwritten_iff.mp hs
  cases hf : s.fault with
  | none => rwa [unlessFaulted_ready hf, unlessFaulted_ready (hfault.trans hf)]
  | some c =>
    rw [unlessFaulted_faulted hf, unlessFaulted_faulted (hfault.trans hf)]
    exact nextAlike_next (respond_same hs _)

theorem conclude_nextAlike {x x' : Except Stop (State × Response)} (h : EndsAlike SameAnswer x x') :
    NextAlike (conclude s x) (conclude s' x') := by
  cases h with
  | @ok a b hab =>
    obtain ⟨t, r⟩ := a
    obtain ⟨t', r'⟩ := b
    obtain ⟨htt, rfl⟩ := hab
    exact nextAlike_next (respond_same htt _)
  | error e =>
    cases e with
    | fail e => exact nextAlike_next (respond_same hs _)
    | raise c => exact nextAlike_next (raiseFault_same hs c)
    | outside i => exact nofun
  | outside i j => exact nofun

theorem command_nextAlike {x x' : Except Stop (State × Response)} (h : EndsAlike SameAnswer x x') :
    NextAlike (command s x) (command s' x') :=
  unlessFaulted_nextAlike hs (conclude_nextAlike hs h)

theorem packerCommand_nextAlike {x x' : Except Stop Packer} (h : EndsAlike SamePacker x x') :
    NextAlike (packerCommand s x) (packerCommand s' x') := by
  apply command_nextAlike hs
  cases h with
  | ok h => exact .ok ⟨setPacker_same hs h, rfl⟩
  | error e => exact .error e
  | outside i j => exact .outside i j

theorem exec_nextAlike (i : Instr) : NextAlike (exec i s) (exec i s') := by
  obtain ⟨hpk, hup, -, -, -⟩ := sameButUnwritten_iff.mp hs
  cases i with
  | pkInit wc => exact packerCommand_nextAlike hs (packerInit_endsAlike wc hpk)
  | pkWrite11 v => exact packerCommand_nextAlike hs (packerWrite11_endsAlike v hpk)
  | pkFinish => exact packerCommand_nextAlike hs (packerFinish_endsAlike _ hpk)
  | pkTake =>
    refine command_nextAlike hs ?_
    rw [packerTake_eq hpk]
    cases packerTake s.pk with
    | ok bytes => exact .ok ⟨hs, rfl⟩
    | error e => exact .error e
  | upInit slice =>
    simp only [exec, execUpInit]
    split
    · exact command_nextAlike hs (.ok ⟨setUnpacker_same hs (sameUnpacker_unpackerInit hup ‹_›), rfl⟩)
    · exact nofun
  | upRead11 =>
    refine command_nextAlike hs ?_
    have hread := unpackerRead11_endsAlike hup
    generalize unpackerRead11 s.up = x, unpackerRead11 s'.up = x' at hread
    cases hread with
    | @ok a b hab =>
      obtain ⟨v, u⟩ := a
      obtain ⟨v', u'⟩ := b
      obtain ⟨rfl, huu⟩ := hab
      exact .ok ⟨setUnpacker_same hs huu, rfl⟩
    | error e => exact .error e
    | outside i j => exact .outside i j
  | mnEncode entropy =>
    refine command_nextAlike hs ?_
    cases codecEncode Sha256.h1 entropy with
    | ok g => exact .ok ⟨hs, rfl⟩
    | error e => exact .error e
  | mnDecode tokens =>
    refine command_nextAlike hs ?_
    cases codecDecode Config.pkFinalAlign Sha256.h1 tokens with
    | ok x => exact .ok ⟨hs, rfl⟩
    | error e => exact .error e

theorem illegalCommand_nextAlike : NextAlike (illegalCommand s) (illegalCommand s') :=
  unlessFaulted_nextAlike hs (nextAlike_next (raiseFault_same hs _))

end

theorem step_nextAlike {s s' : State} (hs : SameButUnwritten s s') : NextAlike (step s) (step s') := by
  obtain ⟨-, -, -, hin, -⟩ := sameButUnwritten_iff.mp hs
  unfold step takeEvent
  rw [hin]
  cases s.inbox with
  | nil => exact nextAlike_next hs
  | cons ev rest =>
    have hrest := setInbox_same hs rest
    cases ev with
    | rst => exact nextAlike_next (rst_same hrest)
    | rstDuring f => exact nextAlike_next (rst_same hrest)
    | frame f =>
      dsimp only
      cases decode f with
      | ok i => exact exec_nextAlike hrest i
      | error e => exact illegalCommand_nextAlike hrest

end Sys2Proof.Machine

namespace Sys2Proof
open Machine

/-- Settles O20: every operation ends alike on two such units, hence every command and every step. -/
theorem unwrittenBytesAreNeverObserved : Obligations.UnwrittenBytesAreNeverObserved :=
  fun _ _ t hs h => step_nextAlike hs t h

end Sys2Proof
end

/-! PROOFS. Bit lists as numbers (spec/00_scope.md R8): the number of a concatenation, and its bits. -/
section
namespace Sys2Proof.Machine

theorem numberOf_append_singleton (l : List Bool) (b : Bool) : numberOf (l ++ [b]) = 2 * numberOf l + b.toNat := by
  rw [numberOf, List.foldl_append]
  rfl

theorem numberOf_append (l m : List Bool) : numberOf (l ++ m) = numberOf l * 2 ^ m.length + numberOf m := by
  induction m using List.reverseRecOn with
  | nil => simp [numberOf]
  | append_singleton m b ih =>
    rw [← List.append_assoc, numberOf_append_singleton, ih, numberOf_append_singleton, List.length_append,
      List.length_singleton, Nat.pow_succ]
    ring

theorem numberOf_lt (l : List Bool) : numberOf l < 2 ^ l.length := by
  induction l using List.reverseRecOn with
  | nil => decide
  | append_singleton l b ih =>
    have hb := b.toNat_lt
    rw [numberOf_append_singleton, List.length_append, List.length_singleton, Nat.pow_succ]
    omega

/-- The bits left after the first `k` are the number modulo their power of two. -/
theorem numberOf_drop (l : List Bool) (k : Nat) : numberOf (l.drop k) = numberOf l % 2 ^ (l.length - k) := by
  have hsplit : numberOf l = numberOf (l.take k) * 2 ^ (l.length - k) + numberOf (l.drop k) := by
    rw [← List.length_drop, ← numberOf_append, List.take_append_drop]
  have hlt := numberOf_lt (l.drop k)
  rw [List.length_drop] at hlt
  rw [hsplit, Nat.add_comm, Nat.add_mul_mod_self_right, Nat.mod_eq_of_lt hlt]

/-- Bit `i` of a list is the bit of its number that has as many bits below it as the list has behind it. -/
theorem testBit_numberOf (l : List Bool) {i : Nat} (h : i < l.length) :
    (numberOf l).testBit (l.length - 1 - i) = l.getD i false := by
  induction l using List.reverseRecOn with
  | nil => exact absurd h (Nat.not_lt_zero i)
  | append_singleton l b ih =>
    rw [List.length_append, List.length_singleton] at h
    rw [numberOf_append_singleton, List.length_append, List.length_singleton]
    by_cases hlast : i = l.length
    · subst hlast
      cases b <;> simp [Nat.testBit_zero]
    · have hi : i < l.length := by omega
      have hsucc : l.length + 1 - 1 - i = l.length - 1 - i + 1 := by omega
      have hhalf : (2 * numberOf l + b.toNat) / 2 = numberOf l := by
        have hb := b.toNat_lt
        omega
      rw [hsucc, Nat.testBit_succ, hhalf, ih hi, List.getD_append _ _ _ _ hi]

@[simp] theorem be11_length (v : Group) : (be11 v).length = 11 := by simp [be11]

theorem numberOf_be11 (v : Group) : numberOf (be11 v) = v.toNat := by
  apply Nat.eq_of_testBit_eq
  intro j
  by_cases hj : j < 11
  · have hidx : (be11 v).length - 1 - (10 - j) = j := by rw [be11_length]; omega
    have hbit := testBit_numberOf (be11 v) (i := 10 - j) (by rw [be11_length]; omega)
    have hback : 10 - (10 - j) = j := by omega
    rw [hidx] at hbit
    rw [hbit, be11, List.getD_eq_getElem _ _ (by simp; omega)]
    simp [hback, BitVec.getLsbD]
  · have hle : 2 ^ 11 ≤ 2 ^ j := Nat.pow_le_pow_right (by decide) (by omega)
    have hnum := numberOf_lt (be11 v)
    rw [be11_length] at hnum
    rw [Nat.testBit_lt_two_pow (Nat.lt_of_lt_of_le hnum hle),
      Nat.testBit_lt_two_pow (Nat.lt_of_lt_of_le v.isLt hle)]

@[simp] theorem streamOf_nil : streamOf [] = [] := rfl

theorem streamOf_append_singleton (vs : List Group) (v : Group) : streamOf (vs ++ [v]) = streamOf vs ++ be11 v := by
  simp [streamOf]

@[simp] theorem streamOf_length (vs : List Group) : (streamOf vs).length = 11 * vs.length := by
  induction vs using List.reverseRecOn with
  | nil => rfl
  | append_singleton vs v ih =>
    rw [streamOf_append_singleton, List.length_append, ih, be11_length, List.length_append, List.length_singleton]
    omega

/-- A bit of one byte taken out of a number. -/
theorem getLsbD_ofNat_div (n k : Nat) {j : Nat} (h : j < 8) :
    (BitVec.ofNat 8 (n / 2 ^ k)).getLsbD j = n.testBit (k + j) := by
  rw [BitVec.getLsbD_ofNat, ← Nat.shiftRight_eq_div_pow, Nat.testBit_shiftRight]
  simp [h]

end Sys2Proof.Machine
end

/-! PROOFS. An open packer holds the bits written (spec/10_state.md R18), along any run of commands without a fault that
neither constructs nor finishes a packer. -/
section
namespace Sys2Proof.Machine

/-- An open packer that has accepted the values `vs` since its PK.INIT: R12, R13, R15, R17 and R18. -/
structure HoldsValues (vs : List Group) (p : Packer) : Prop where
  phase : p.phase = .opened
  wc_le : p.wc.toNat ≤ Config.pkMaxWc
  count_le : vs.length ≤ p.wc.toNat
  cnt : p.cnt.toNat = vs.length
  len : p.len.toNat = 11 * vs.length / 8
  nacc : p.nacc.toNat = 11 * vs.length % 8
  bits : ∀ i, i < 8 * p.len.toNat → streamBit p.byteAt i = (streamOf vs).getD i false
  acc : p.acc.toNat = numberOf ((streamOf vs).drop (8 * p.len.toNat))

theorem holdsValues_packerInit {wc : BitVec 11} {p q : Packer} (h : packerInit wc p = .ok q) : HoldsValues [] q := by
  obtain ⟨hwc, rfl⟩ := packerInit_ok_iff.mp h
  have hcap : Config.pkMaxWc = 24 := rfl
  exact
    { phase := rfl
      wc_le := by
        rw [BitVec.toNat_ofNat, Nat.mod_eq_of_lt (by omega)]
        exact hwc
      count_le := Nat.zero_le _
      cnt := rfl
      len := rfl
      nacc := rfl
      bits := fun i hi => absurd hi (Nat.not_lt_zero i)
      acc := rfl }

/-- W is the number of the bits not yet stored, the residue and the new value. -/
theorem bitsInHand_eq_numberOf {vs : List Group} {p : Packer} (h : HoldsValues vs p) (v : Group) :
    bitsInHand v p = numberOf ((streamOf (vs ++ [v])).drop (8 * p.len.toNat)) := by
  have hlen := h.len
  have hle : 8 * p.len.toNat ≤ (streamOf vs).length := by rw [streamOf_length]; omega
  rw [streamOf_append_singleton, List.drop_append_of_le_length hle, numberOf_append, ← h.acc, be11_length,
    numberOf_be11, bitsInHand]

/-- The bits a write stores are those of the stream from 8 * PK.LEN on. -/
theorem storedByte_getLsbD {vs : List Group} {p : Packer} (h : HoldsValues vs p) (v : Group) {i : Nat}
    (hlo : p.len.toNat ≤ i / 8) (hhi : i / 8 < p.len.toNat + (p.nacc.toNat + 11) / 8) :
    (storedByte v p (i / 8 - p.len.toNat)).getLsbD (7 - i % 8) = (streamOf (vs ++ [v])).getD i false := by
  have hlen := h.len
  have hnacc := h.nacc
  have hcount : ((streamOf (vs ++ [v])).drop (8 * p.len.toNat)).length = p.nacc.toNat + 11 := by
    rw [List.length_drop, streamOf_length, List.length_append, List.length_singleton]
    omega
  have hbit := testBit_numberOf ((streamOf (vs ++ [v])).drop (8 * p.len.toNat)) (i := i - 8 * p.len.toNat) (by omega)
  have hpos : p.nacc.toNat + 11 - 8 * (i / 8 - p.len.toNat + 1) + (7 - i % 8) =
      p.nacc.toNat + 11 - 1 - (i - 8 * p.len.toNat) := by omega
  have hback : 8 * p.len.toNat + (i - 8 * p.len.toNat) = i := by omega
  rw [storedByte, getLsbD_ofNat_div _ _ (by omega), bitsInHand_eq_numberOf h v, hpos, ← hcount, hbit,
    List.getD_eq_getElem?_getD, List.getElem?_drop, hback, List.getD_eq_getElem?_getD]

theorem byteAt_appended {p : Packer} (v : Group) (h : p.len.toNat + (p.nacc.toNat + 11) / 8 ≤ Config.pkBufBytes)
    (a : Nat) : (p.appended v).byteAt a =
      if p.len.toNat ≤ a ∧ a < p.len.toNat + (p.nacc.toNat + 11) / 8 then storedByte v p (a - p.len.toNat)
      else p.byteAt a := by
  rw [Packer.byteAt, appended_read v h]
  split <;> rfl

theorem holdsValues_packerWrite11 {vs : List Group} {v : Group} {p q : Packer} (h : HoldsValues vs p)
    (hq : packerWrite11 v p = .ok q) : HoldsValues (vs ++ [v]) q := by
  obtain ⟨-, hcnt, hroom, rfl⟩ := packerWrite11_ok_iff_appended.mp hq
  have hlen := h.len
  have hnacc := h.nacc
  have hlen' := appended_len v hroom
  have hlength : (vs ++ [v]).length = vs.length + 1 := by simp
  have hcnt_old := h.cnt
  exact
    { phase := by rw [appended_phase, h.phase]
      wc_le := by rw [appended_wc]; exact h.wc_le
      count_le := by rw [appended_wc, hlength]; omega
      cnt := by rw [appended_cnt_toNat p v hcnt, hlength, h.cnt]
      len := by rw [hlen', hlength]; omega
      nacc := by rw [appended_nacc, hlength]; omega
      bits := fun i hi => by
        rw [streamBit, byteAt_appended v hroom]
        by_cases hold : i < 8 * p.len.toNat
        · rw [if_neg (by omega), streamOf_append_singleton, List.getD_append _ _ _ _ (by rw [streamOf_length]; omega)]
          exact h.bits i hold
        · rw [if_pos (by omega)]
          exact storedByte_getLsbD h v (by omega) (by omega)
      acc := by
        have hleft : (streamOf (vs ++ [v])).length - 8 * p.len.toNat - 8 * ((p.nacc.toNat + 11) / 8) =
            (p.nacc.toNat + 11) % 8 := by
          rw [streamOf_length, hlength]
          omega
        rw [appended_acc, hlen', Nat.mul_add, ← List.drop_drop, numberOf_drop _ (8 * ((p.nacc.toNat + 11) / 8)),
          List.length_drop, hleft, bitsInHand_eq_numberOf h v] }

/-! ### Runs without a fault -/

/-- A command after which the block is not faulted was not refused and did not fault: it answered an error, or
completed. -/
theorem command_ready {s t : State} {op : Except Stop (State × Response)} (h : command s op = .next t) (ht : t.Ready) :
    s.Ready ∧ ((∃ e, op = .error (.fail e) ∧ t = respond (.error e) s) ∨ ∃ u r, op = .ok (u, r) ∧ t = respond r u) := by
  obtain ⟨c, hf, rfl⟩ | ⟨hf, u, r, ho, rfl⟩ | ⟨hf, e, ho, rfl⟩ | ⟨hf, c, ho, rfl⟩ := command_cases h
  · exact absurd (hf.symm.trans ht) (by simp)
  · exact ⟨hf, .inr ⟨u, r, ho, rfl⟩⟩
  · exact ⟨hf, .inl ⟨e, ho, rfl⟩⟩
  · exact absurd ht (by simp [State.Ready])

/-- FAULT is sticky. -/
theorem exec_ready {i : Instr} {s t : State} (h : exec i s = .next t) (ht : t.Ready) : s.Ready := by
  obtain ⟨c, hf, rfl⟩ | ⟨hf, -⟩ := exec_cases h
  · exact absurd (hf.symm.trans ht) (by simp)
  · exact hf

theorem execAll_cons_iff {i : Instr} {is : List Instr} {s t : State} :
    execAll (i :: is) s = .next t ↔ ∃ u, exec i s = .next u ∧ execAll is u = .next t := by
  rw [execAll]
  cases exec i s with
  | next u => simp
  | fault f => simp
  | refused r => simp

theorem execAll_ready {is : List Instr} {s t : State} (h : execAll is s = .next t) (ht : t.Ready) : s.Ready := by
  induction is generalizing s with
  | nil =>
    obtain rfl := Host.Outcome.next.inj h
    exact ht
  | cons i is ih =>
    obtain ⟨u, hu, hrest⟩ := execAll_cons_iff.mp h
    exact exec_ready hu (ih hrest)

/-- A safe run is its first command, after which the block is not faulted, and a safe run of the rest. -/
theorem cleanRun_cons_iff {i : Instr} {is : List Instr} {s t : State} :
    CleanRun (i :: is) s t ↔ s.Ready ∧ ∃ u, exec i s = .next u ∧ CleanRun is u t := by
  constructor
  · rintro ⟨hs, h, ht⟩
    obtain ⟨u, hu, hrest⟩ := execAll_cons_iff.mp h
    exact ⟨hs, u, hu, execAll_ready hrest ht, hrest, ht⟩
  · rintro ⟨hs, u, hu, -, hrest, ht⟩
    exact ⟨hs, execAll_cons_iff.mpr ⟨u, hu, hrest⟩, ht⟩

theorem packerInit_ne_fail (wc : BitVec 11) (p : Packer) (e : MnError) : packerInit wc p ≠ .error (.fail e) := by
  unfold packerInit
  split <;> simp

theorem packerWrite11_ne_fail (v : Group) (p : Packer) (e : MnError) : packerWrite11 v p ≠ .error (.fail e) := by
  unfold packerWrite11
  split
  · split
    · intro h
      obtain ⟨i, hi⟩ := append11_error h
      cases hi
    · simp
  · simp

/-- A packer command that cannot answer an error and after which the block is not faulted completed. -/
theorem packerCommand_ready {s t : State} {x : Except Stop Packer} (hx : ∀ e, x ≠ .error (.fail e))
    (h : packerCommand s x = .next t) (ht : t.Ready) : x = .ok t.pk := by
  obtain ⟨-, ⟨e, ho, -⟩ | ⟨u, r, ho, rfl⟩⟩ := command_ready h ht
  · cases x with
    | ok p => cases ho
    | error e' => exact absurd (congrArg Except.error (Except.error.inj ho)) (hx e)
  · cases x with
    | ok p =>
      cases ho
      rfl
    | error e' => cases ho

theorem holdsValues_exec {i : Instr} {vs : List Group} {s t : State} (hi : KeepsPackerOpen i)
    (hv : HoldsValues vs s.pk) (h : exec i s = .next t) (ht : t.Ready) :
    HoldsValues (vs ++ valuesWritten [i]) t.pk := by
  obtain ⟨hfinish, hinit⟩ := hi
  cases i with
  | pkInit wc => exact absurd rfl (hinit wc)
  | pkFinish => exact absurd rfl hfinish
  | pkWrite11 v => exact holdsValues_packerWrite11 hv (packerCommand_ready (packerWrite11_ne_fail v s.pk) h ht)
  | pkTake => simpa [valuesWritten, (exec_pkTake_frame h).1] using hv
  | upInit slice => simpa [valuesWritten, (exec_upInit_frame h).1] using hv
  | upRead11 => simpa [valuesWritten, (exec_upRead11_frame h).1] using hv
  | mnEncode entropy => simpa [valuesWritten, (exec_mnEncode_frame h).1] using hv
  | mnDecode tokens => simpa [valuesWritten, (exec_mnDecode_frame h).1] using hv

theorem valuesWritten_cons (i : Instr) (is : List Instr) :
    valuesWritten (i :: is) = valuesWritten [i] ++ valuesWritten is := by
  cases i <;> rfl

theorem holdsValues_cleanRun {is : List Instr} {vs : List Group} {s t : State} (his : ∀ i, i ∈ is → KeepsPackerOpen i)
    (hv : HoldsValues vs s.pk) (h : CleanRun is s t) : HoldsValues (vs ++ valuesWritten is) t.pk := by
  induction is generalizing s vs with
  | nil =>
    obtain ⟨-, hrun, -⟩ := h
    obtain rfl := Host.Outcome.next.inj hrun
    simpa [valuesWritten] using hv
  | cons i is ih =>
    obtain ⟨-, u, hu, hrest⟩ := cleanRun_cons_iff.mp h
    have hstep := holdsValues_exec (his i List.mem_cons_self) hv hu hrest.1
    rw [valuesWritten_cons, ← List.append_assoc]
    exact ih (fun j hj => his j (List.mem_cons_of_mem i hj)) hstep hrest

/-- After a PK.INIT and other commands that keep the packer open, the packer holds the values written among them. -/
theorem holdsValues_of_cleanRun_pkInit {wc : BitVec 11} {is : List Instr} {s t : State}
    (his : ∀ i, i ∈ is → KeepsPackerOpen i) (h : CleanRun (.pkInit wc :: is) s t) :
    HoldsValues (valuesWritten is) t.pk := by
  obtain ⟨-, u, hu, hrest⟩ := cleanRun_cons_iff.mp h
  have hinit := holdsValues_packerInit (packerCommand_ready (packerInit_ne_fail wc s.pk) hu hrest.1)
  exact holdsValues_cleanRun his hinit hrest

end Sys2Proof.Machine

namespace Sys2Proof
open Machine

/-- Settles O28: PK.INIT leaves a packer that holds no values, a completed write adds its value, and every other command
that keeps the packer open leaves it. -/
theorem openPackerHoldsTheBitsWritten : Obligations.OpenPackerHoldsTheBitsWritten := by
  intro wc is s t his h
  have hv := holdsValues_of_cleanRun_pkInit his h
  exact ⟨hv.phase, hv.cnt, hv.len, hv.nacc, hv.bits, hv.acc⟩

end Sys2Proof
end

/-! PROOFS. The bytes a read touches (spec/42_bitunpacker.md R113), and the step on a legal frame
(spec/20_memory.md R53). -/
section
namespace Sys2Proof.Machine

/-- Eleven bits from position `p` stand in two bytes, and in a third only from offset 6 on. -/
theorem byteIndex_cases {p j : Nat} (hj : j < 11) :
    (p + j) / 8 = p / 8 ∨ (p + j) / 8 = p / 8 + 1 ∨ (6 ≤ p % 8 ∧ (p + j) / 8 = p / 8 + 2) := by
  omega

/-- A step on a legal frame. -/
theorem step_legal {s : State} {f : List Byte} {rest : List HostEvent} {i : Instr}
    (h : s.inbox = .frame f :: rest) (hd : decode f = .ok i) : step s = exec i { s with inbox := rest } := by
  simp only [step, takeEvent, h, hd]

end Sys2Proof.Machine

namespace Sys2Proof
open Machine

/-- Settles O36: the contents agree on each byte that one of the group's bits stands in. -/
theorem readTouchesTwoOrThreeBytes : Obligations.ReadTouchesTwoOrThreeBytes := by
  intro f g p hfirst hsecond hthird
  refine groupAt_congr fun j hj => ?_
  obtain hb | hb | ⟨hoff, hb⟩ := byteIndex_cases (p := p) hj
  · rw [hb, hfirst]
  · rw [hb, hsecond]
  · rw [hb, hthird hoff]

/-- Settles O5. -/
theorem stepRunsTheDecodedCommand : Obligations.StepRunsTheDecodedCommand :=
  fun _ _ _ _ => step_legal

end Sys2Proof
end

/-! PROOFS. Frames and their fields (spec/30_encoding.md R66 to R71): a header and a token are the same three fields of a
16-bit word, the decoder and the encoder are inverse on fields, tokens and frames, and a frame has one meaning. -/
section
namespace Sys2Proof

/-! ### The fields of a 16-bit word -/

/-- A 16-bit word from its fields, as a header (with Z = 0) and a token (with OP = 0) both are (R66, R70). -/
def wordOfFields (op : BitVec 4) (z : Bool) (arg : BitVec 11) : Word16 := op ++ BitVec.ofBool z ++ arg

theorem headerWord_eq (op : BitVec 4) (arg : BitVec 11) : headerWord op arg = wordOfFields op false arg := rfl

theorem wordOfToken_eq (t : Token) : wordOfToken t = wordOfFields 0#4 t.miss t.idx := rfl

theorem toNat_append_byte {n : Nat} (x : BitVec n) (b : Byte) : (x ++ b).toNat = x.toNat * 256 + b.toNat := by
  rw [BitVec.toNat_append, ← Nat.shiftLeft_add_eq_or_of_lt b.isLt, Nat.shiftLeft_eq]

theorem toNat_be16 (a b : Byte) : (be16 a b).toNat = a.toNat * 256 + b.toNat := toNat_append_byte a b

theorem toNat_wordOfFields (op : BitVec 4) (z : Bool) (arg : BitVec 11) :
    (wordOfFields op z arg).toNat = op.toNat * 4096 + z.toNat * 2048 + arg.toNat := by
  have hz : (BitVec.ofBool z).toNat < 2 ^ 1 := (BitVec.ofBool z).isLt
  rw [wordOfFields, BitVec.toNat_append, ← Nat.shiftLeft_add_eq_or_of_lt arg.isLt, BitVec.toNat_append,
    ← Nat.shiftLeft_add_eq_or_of_lt hz, Nat.shiftLeft_eq, Nat.shiftLeft_eq, BitVec.toNat_ofBool]
  omega

theorem toNat_opField (h : Word16) : (opField h).toNat = h.toNat / 4096 := by
  have := h.isLt
  rw [opField, BitVec.extractLsb'_toNat, Nat.shiftRight_eq_div_pow]
  omega

theorem toNat_zField (h : Word16) : (zField h).toNat = h.toNat / 2048 % 2 := by
  rw [zField, BitVec.getLsbD, Nat.toNat_testBit]

theorem toNat_argField (h : Word16) : (argField h).toNat = h.toNat % 2048 := by
  rw [argField, BitVec.extractLsb'_toNat, Nat.shiftRight_zero]

@[simp] theorem opField_wordOfFields (op : BitVec 4) (z : Bool) (arg : BitVec 11) :
    opField (wordOfFields op z arg) = op := by
  have hz := z.toNat_lt
  have harg := arg.isLt
  apply BitVec.eq_of_toNat_eq
  rw [toNat_opField, toNat_wordOfFields]
  omega

@[simp] theorem zField_wordOfFields (op : BitVec 4) (z : Bool) (arg : BitVec 11) :
    zField (wordOfFields op z arg) = z := by
  have hz := z.toNat_lt
  have harg := arg.isLt
  rw [Bool.eq_iff_iff, ← Bool.toNat_eq_one, ← Bool.toNat_eq_one, toNat_zField, toNat_wordOfFields]
  omega

@[simp] theorem argField_wordOfFields (op : BitVec 4) (z : Bool) (arg : BitVec 11) :
    argField (wordOfFields op z arg) = arg := by
  have harg := arg.isLt
  apply BitVec.eq_of_toNat_eq
  rw [toNat_argField, toNat_wordOfFields]
  omega

@[simp] theorem wordOfFields_fields (h : Word16) : wordOfFields (opField h) (zField h) (argField h) = h := by
  apply BitVec.eq_of_toNat_eq
  rw [toNat_wordOfFields, toNat_opField, toNat_zField, toNat_argField]
  omega

@[simp] theorem be16Bytes_be16 (a b : Byte) : be16Bytes (be16 a b) = [a, b] :=
  congrArg₂ (fun x y => [x, y]) BitVec.extractLsb'_append_eq_left BitVec.extractLsb'_append_eq_right

theorem be16_be16Bytes (x : Word16) : be16 (x.extractLsb' 8 8) (x.extractLsb' 0 8) = x :=
  BitVec.extractLsb'_append_extractLsb'

/-! ### Tokens -/

theorem tokenOfWord_eq (w : Word16) :
    tokenOfWord w = if opField w = 0#4 then .ok ⟨zField w, argField w⟩ else .error .tokenReserved := rfl

theorem tokenOfWord_ok_iff {w : Word16} {t : Token} : tokenOfWord w = .ok t ↔ w = wordOfToken t := by
  rw [tokenOfWord_eq, wordOfToken_eq]
  constructor
  · intro h
    split at h
    · next hop =>
      obtain rfl := Except.ok.inj h
      rw [← hop, wordOfFields_fields]
    · cases h
  · rintro rfl
    simp

theorem tokensOfBytes_bytesOfTokens (ts : List Token) : tokensOfBytes (bytesOfTokens ts) = .ok ts := by
  induction ts with
  | nil => rfl
  | cons t ts ih =>
    have ht : tokenOfWord (wordOfToken t) = .ok t := tokenOfWord_ok_iff.mpr rfl
    simp [bytesOfTokens, be16Bytes, tokensOfBytes, be16_be16Bytes, ht, ih]

theorem bytesOfTokens_of_tokensOfBytes {bs : List Byte} {ts : List Token} (h : tokensOfBytes bs = .ok ts) :
    bytesOfTokens ts = bs := by
  fun_induction tokensOfBytes bs generalizing ts with
  | case1 =>
    obtain rfl := Except.ok.inj h
    rfl
  | case2 => cases h
  | case3 => cases h
  | case4 => cases h
  | case5 a b rest t ht us hus ih =>
    obtain rfl := Except.ok.inj h
    rw [bytesOfTokens, ← tokenOfWord_ok_iff.mp ht, be16Bytes_be16, ih hus]
    rfl

/-! ### Frames -/

/-- What the decoder does with an operation code: one of the eight commands in its format, or a reserved code (R67). -/
theorem decodeOp_cases (op : BitVec 4) (arg : BitVec 11) (payload : List Byte) :
    (op = 0x1#4 ∧ decodeOp op arg payload = decodeH (.pkInit arg) payload) ∨
    (op = 0x2#4 ∧ decodeOp op arg payload = decodeH (.pkWrite11 arg) payload) ∨
    (op = 0x3#4 ∧ decodeOp op arg payload = decodeH0 .pkFinish arg payload) ∨
    (op = 0x4#4 ∧ decodeOp op arg payload = decodeH0 .pkTake arg payload) ∨
    (op = 0x5#4 ∧ decodeOp op arg payload = decodeHB .upInit arg payload) ∨
    (op = 0x6#4 ∧ decodeOp op arg payload = decodeH0 .upRead11 arg payload) ∨
    (op = 0x8#4 ∧ decodeOp op arg payload = decodeHB .mnEncode arg payload) ∨
    (op = 0x9#4 ∧ decodeOp op arg payload = decodeHT .mnDecode arg payload) ∨
    ((op.toNat = 0 ∨ op.toNat = 7 ∨ 10 ≤ op.toNat) ∧ decodeOp op arg payload = .error (.reservedOp op)) := by
  have hop (k : BitVec 4) : op = k ↔ op.toNat = k.toNat := BitVec.toNat_inj.symm
  unfold decodeOp
  split
  case h_9 =>
    simp only [imp_false] at *
    have hreserved : op.toNat = 0 ∨ op.toNat = 7 ∨ 10 ≤ op.toNat := by omega
    simp [hreserved]
  all_goals simp_all

theorem decodeH_ok_iff {i j : Instr} {payload : List Byte} : decodeH i payload = .ok j ↔ payload = [] ∧ j = i := by
  unfold decodeH
  split <;> simp_all [eq_comm, ← List.length_eq_zero_iff]

theorem decodeH0_ok_iff {i j : Instr} {arg : BitVec 11} {payload : List Byte} :
    decodeH0 i arg payload = .ok j ↔ arg = 0#11 ∧ payload = [] ∧ j = i := by
  unfold decodeH0
  split <;> simp_all [decodeH_ok_iff]

theorem decodeHB_ok_iff {mk : List Byte → Instr} {j : Instr} {arg : BitVec 11} {payload : List Byte} :
    decodeHB mk arg payload = .ok j ↔ payload.length = arg.toNat ∧ j = mk payload := by
  unfold decodeHB
  split <;> simp_all [eq_comm]

theorem decodeHT_ok_iff {mk : List Token → Instr} {j : Instr} {arg : BitVec 11} {payload : List Byte} :
    decodeHT mk arg payload = .ok j ↔ ∃ ts, ts.length = arg.toNat ∧ payload = bytesOfTokens ts ∧ j = mk ts := by
  unfold decodeHT
  constructor
  · intro h
    split at h
    · next hlen =>
      split at h
      · cases h
      · next ts hts =>
        have hbytes := bytesOfTokens_of_tokensOfBytes hts
        have hlen' := bytesOfTokens_length ts
        rw [hbytes] at hlen'
        exact ⟨ts, by omega, hbytes.symm, (Except.ok.inj h).symm⟩
    · cases h
  · rintro ⟨ts, hlen, rfl, rfl⟩
    rw [if_pos (by rw [bytesOfTokens_length, hlen]), tokensOfBytes_bytesOfTokens]

theorem decode_frameOf (op : BitVec 4) (arg : BitVec 11) (payload : List Byte) :
    decode (frameOf op arg payload) = decodeOp op arg payload := by
  simp [frameOf, be16Bytes, decode, be16_be16Bytes, headerWord_eq]

/-- A frame that decodes is a header with Z = 0 and a payload. -/
theorem eq_frameOf_of_decode {f : List Byte} {i : Instr} (h : decode f = .ok i) :
    ∃ op arg payload, f = frameOf op arg payload := by
  match f, h with
  | b0 :: b1 :: payload, h =>
    have hz : zField (be16 b0 b1) = false := by
      simp only [decode] at h
      split at h
      · cases h
      · next hz => exact eq_false_of_ne_true hz
    refine ⟨opField (be16 b0 b1), argField (be16 b0 b1), payload, ?_⟩
    rw [frameOf, headerWord_eq, ← hz, wordOfFields_fields, be16Bytes_be16]
    rfl

/-- ARG can state every length up to UP_CAP (R68). -/
theorem toNat_ofNat_of_le_upCap {n : Nat} (h : n ≤ Config.upCap) : (BitVec.ofNat 11 n).toNat = n := by
  have hcap : Config.upCap = 2047 := rfl
  rw [BitVec.toNat_ofNat, Nat.mod_eq_of_lt (by omega)]

theorem toNat_arg_le_upCap (arg : BitVec 11) : arg.toNat ≤ Config.upCap := Nat.le_of_lt_succ arg.isLt

theorem decode_encode {i : Instr} (hi : i.wellFormed = true) : decode (encode i) = .ok i := by
  cases i with
  | pkInit wc => exact (decode_frameOf _ _ _).trans (decodeH_ok_iff.mpr ⟨rfl, rfl⟩)
  | pkWrite11 v => exact (decode_frameOf _ _ _).trans (decodeH_ok_iff.mpr ⟨rfl, rfl⟩)
  | pkFinish => exact (decode_frameOf _ _ _).trans (decodeH0_ok_iff.mpr ⟨rfl, rfl, rfl⟩)
  | pkTake => exact (decode_frameOf _ _ _).trans (decodeH0_ok_iff.mpr ⟨rfl, rfl, rfl⟩)
  | upInit slice =>
    have hlen := toNat_ofNat_of_le_upCap (of_decide_eq_true hi)
    exact (decode_frameOf _ _ _).trans (decodeHB_ok_iff.mpr ⟨hlen.symm, rfl⟩)
  | upRead11 => exact (decode_frameOf _ _ _).trans (decodeH0_ok_iff.mpr ⟨rfl, rfl, rfl⟩)
  | mnEncode entropy =>
    have hlen := toNat_ofNat_of_le_upCap (of_decide_eq_true hi)
    exact (decode_frameOf _ _ _).trans (decodeHB_ok_iff.mpr ⟨hlen.symm, rfl⟩)
  | mnDecode tokens =>
    have hlen := toNat_ofNat_of_le_upCap (of_decide_eq_true hi)
    exact (decode_frameOf _ _ _).trans (decodeHT_ok_iff.mpr ⟨tokens, hlen.symm, rfl, rfl⟩)

/-- An operation that decodes is well formed, and its encoding is the frame it was read from. -/
theorem encode_of_decodeOp {op : BitVec 4} {arg : BitVec 11} {payload : List Byte} {i : Instr}
    (h : decodeOp op arg payload = .ok i) : i.wellFormed = true ∧ encode i = frameOf op arg payload := by
  have harg := toNat_arg_le_upCap arg
  obtain ⟨rfl, hd⟩ | ⟨rfl, hd⟩ | ⟨rfl, hd⟩ | ⟨rfl, hd⟩ | ⟨rfl, hd⟩ | ⟨rfl, hd⟩ | ⟨rfl, hd⟩ | ⟨rfl, hd⟩ | ⟨-, hd⟩ :=
    decodeOp_cases op arg payload
  all_goals rw [hd] at h
  · obtain ⟨rfl, rfl⟩ := decodeH_ok_iff.mp h
    exact ⟨rfl, rfl⟩
  · obtain ⟨rfl, rfl⟩ := decodeH_ok_iff.mp h
    exact ⟨rfl, rfl⟩
  · obtain ⟨rfl, rfl, rfl⟩ := decodeH0_ok_iff.mp h
    exact ⟨rfl, rfl⟩
  · obtain ⟨rfl, rfl, rfl⟩ := decodeH0_ok_iff.mp h
    exact ⟨rfl, rfl⟩
  · obtain ⟨hlen, rfl⟩ := decodeHB_ok_iff.mp h
    exact ⟨decide_eq_true (hlen ▸ harg), by rw [encode, hlen, BitVec.ofNat_toNat, BitVec.setWidth_eq]⟩
  · obtain ⟨rfl, rfl, rfl⟩ := decodeH0_ok_iff.mp h
    exact ⟨rfl, rfl⟩
  · obtain ⟨hlen, rfl⟩ := decodeHB_ok_iff.mp h
    exact ⟨decide_eq_true (hlen ▸ harg), by rw [encode, hlen, BitVec.ofNat_toNat, BitVec.setWidth_eq]⟩
  · obtain ⟨ts, hlen, rfl, rfl⟩ := decodeHT_ok_iff.mp h
    exact ⟨decide_eq_true (hlen ▸ harg), by rw [encode, hlen, BitVec.ofNat_toNat, BitVec.setWidth_eq]⟩
  · cases h

theorem encode_of_decode {f : List Byte} {i : Instr} (h : decode f = .ok i) : i.wellFormed = true ∧ encode i = f := by
  obtain ⟨op, arg, payload, rfl⟩ := eq_frameOf_of_decode h
  rw [decode_frameOf] at h
  exact encode_of_decodeOp h

/-- Settles O1. -/
theorem writtenOutFramesDecode : Obligations.WrittenOutFramesDecode := by
  unfold Obligations.WrittenOutFramesDecode
  decide

/-- Settles O2: each encoding is a header and a payload that its format's decoder accepts. -/
theorem decodeInvertsEncode : Obligations.DecodeInvertsEncode :=
  fun _ => decode_encode

/-- Settles O3: a frame that decodes is a header and a payload, and each format's decoder accepts only the payload that
the encoder writes. -/
theorem decodedFrameIsTheEncoding : Obligations.DecodedFrameIsTheEncoding :=
  fun _ _ => encode_of_decode

end Sys2Proof
end

/-! PROOFS. The illegal frames are those that R75 lists (spec/30_encoding.md R75, R77), and a step on one raises BadCommand
unless an older fault refuses it (spec/60_exceptions.md R163, R164). -/
section
namespace Sys2Proof
open Machine

/-! ### Which operations are illegal, format by format -/

theorem decodeH_error_iff {i : Instr} {payload : List Byte} :
    (∃ e, decodeH i payload = .error e) ↔ payload.length ≠ 0 := by
  unfold decodeH
  split <;> simp_all

theorem decodeH0_error_iff {i : Instr} {arg : BitVec 11} {payload : List Byte} :
    (∃ e, decodeH0 i arg payload = .error e) ↔ arg.toNat ≠ 0 ∨ payload.length ≠ 0 := by
  have harg : arg = 0#11 ↔ arg.toNat = 0 := BitVec.toNat_inj.symm
  unfold decodeH0
  split <;> simp_all [decodeH_error_iff]

theorem decodeHB_error_iff {mk : List Byte → Instr} {arg : BitVec 11} {payload : List Byte} :
    (∃ e, decodeHB mk arg payload = .error e) ↔ payload.length ≠ arg.toNat := by
  unfold decodeHB
  split <;> simp_all

theorem opField_be16_eq_zero_iff (a b : Byte) : opField (be16 a b) = 0#4 ↔ a.toNat / 16 = 0 := by
  have hb := b.isLt
  rw [← BitVec.toNat_inj, toNat_opField, toNat_be16, BitVec.toNat_ofNat]
  omega

theorem tokensOfBytes_cons_error_iff (a b : Byte) (rest : List Byte) :
    (∃ e, tokensOfBytes (a :: b :: rest) = .error e) ↔ a.toNat / 16 ≠ 0 ∨ ∃ e, tokensOfBytes rest = .error e := by
  rw [tokensOfBytes, tokenOfWord_eq, ne_eq, ← opField_be16_eq_zero_iff a b]
  by_cases hop : opField (be16 a b) = 0#4
  · cases tokensOfBytes rest <;> simp [hop]
  · simp [hop]

/-- A payload of whole tokens is illegal if and only if the first byte of one of them has a reserved bit set. -/
theorem tokensOfBytes_error_iff {n : Nat} {bs : List Byte} (h : bs.length = 2 * n) :
    (∃ e, tokensOfBytes bs = .error e) ↔ ∃ k, k < n ∧ (byteOf bs (2 * k)).toNat / 16 ≠ 0 := by
  induction n generalizing bs with
  | zero =>
    obtain rfl := List.length_eq_zero_iff.mp h
    simp [tokensOfBytes]
  | succ n ih =>
    match bs, h with
    | a :: b :: rest, h =>
      have hrest : rest.length = 2 * n := by simpa [Nat.mul_succ] using h
      rw [tokensOfBytes_cons_error_iff, ih hrest, Nat.exists_lt_succ_left]
      rfl

theorem decodeHT_error_iff {mk : List Token → Instr} {arg : BitVec 11} {payload : List Byte} :
    (∃ e, decodeHT mk arg payload = .error e) ↔
      (∃ k, k < arg.toNat ∧ (byteOf payload (2 * k)).toNat / 16 ≠ 0) ∨ payload.length ≠ 2 * arg.toNat := by
  unfold decodeHT
  by_cases hlen : payload.length = 2 * arg.toNat
  · rw [if_pos hlen, ← tokensOfBytes_error_iff hlen]
    cases tokensOfBytes payload <;> simp [hlen]
  · simp [hlen]

/-! ### Which frames are illegal -/

/-- The clauses of R75 on an operation code, ARG and payload. -/
theorem decodeOp_error_iff {op : BitVec 4} {arg : BitVec 11} {payload : List Byte} :
    (∃ e, decodeOp op arg payload = .error e) ↔
      (op.toNat = 0 ∨ op.toNat = 7 ∨ 10 ≤ op.toNat) ∨
      ((op.toNat = 3 ∨ op.toNat = 4 ∨ op.toNat = 6) ∧ arg.toNat ≠ 0) ∨
      (op.toNat = 9 ∧ ∃ k, k < arg.toNat ∧ (byteOf payload (2 * k)).toNat / 16 ≠ 0) ∨
      payload.length ≠ payloadLength op arg := by
  obtain ⟨rfl, hd⟩ | ⟨rfl, hd⟩ | ⟨rfl, hd⟩ | ⟨rfl, hd⟩ | ⟨rfl, hd⟩ | ⟨rfl, hd⟩ | ⟨rfl, hd⟩ | ⟨rfl, hd⟩ | ⟨hop, hd⟩ :=
    decodeOp_cases op arg payload
  all_goals rw [hd]
  · simp [decodeH_error_iff, payloadLength]
  · simp [decodeH_error_iff, payloadLength]
  · simp [decodeH0_error_iff, payloadLength]
  · simp [decodeH0_error_iff, payloadLength]
  · simp [decodeHB_error_iff, payloadLength]
  · simp [decodeH0_error_iff, payloadLength]
  · simp [decodeHB_error_iff, payloadLength]
  · simp [decodeHT_error_iff, payloadLength]
  · simp [hop]

/-- R71's payload length, by cases on the value of OP. -/
theorem payloadLength_eq (op : BitVec 4) (arg : BitVec 11) :
    payloadLength op arg =
      if op.toNat = 5 ∨ op.toNat = 8 then arg.toNat else if op.toNat = 9 then 2 * arg.toNat else 0 := by
  unfold payloadLength
  split <;> simp_all

section
variable (b0 b1 : Byte) (payload : List Byte)

/-- R77 reads OP, Z and ARG from the first two bytes by arithmetic; they are the fields of the header. -/
theorem frameOp_cons : frameOp (b0 :: b1 :: payload) = (opField (be16 b0 b1)).toNat := by
  have hb := b1.isLt
  rw [toNat_opField, toNat_be16]
  show b0.toNat / 16 = _
  omega

theorem frameZ_cons : frameZ (b0 :: b1 :: payload) = (zField (be16 b0 b1)).toNat := by
  have hb := b1.isLt
  rw [toNat_zField, toNat_be16]
  show b0.toNat / 8 % 2 = _
  omega

theorem frameArg_cons : frameArg (b0 :: b1 :: payload) = (argField (be16 b0 b1)).toNat := by
  have hb := b1.isLt
  rw [toNat_argField, toNat_be16]
  show b0.toNat % 8 * 256 + b1.toNat = _
  omega

theorem framePayload_cons :
    framePayload (b0 :: b1 :: payload) = payloadLength (opField (be16 b0 b1)) (argField (be16 b0 b1)) := by
  rw [framePayload, payloadLength_eq, frameOp_cons, frameArg_cons]

end

/-- The decoder rejects a frame if and only if one of R75's clauses holds. -/
theorem decode_error_iff (f : List Byte) : (∃ e, decode f = .error e) ↔ IllegalByRule f := by
  match f with
  | [] => simp [decode, IllegalByRule]
  | [b] => simp [decode, IllegalByRule]
  | b0 :: b1 :: payload =>
    have htoken (k : Nat) : byteOf (b0 :: b1 :: payload) (2 + 2 * k) = byteOf payload (2 * k) := by
      rw [Nat.add_comm]
      rfl
    have hlen (n : Nat) : (b0 :: b1 :: payload).length ≠ 2 + n ↔ payload.length ≠ n := by
      rw [List.length_cons, List.length_cons]
      omega
    rw [IllegalByRule, hlen, frameOp_cons, frameZ_cons, frameArg_cons, framePayload_cons, Bool.toNat_eq_one]
    simp only [htoken, decode]
    cases zField (be16 b0 b1) with
    | true => simp
    | false => simp [decodeOp_error_iff]

theorem step_illegal_ready {s : State} {f : List Byte} {rest : List HostEvent} (hf : s.inbox = .frame f :: rest)
    (hill : IllegalByRule f) (hs : s.fault = none) :
    step s = .next { s with inbox := rest, fault := some .badCommand, outbox := s.outbox ++ [[0x86]] } := by
  obtain ⟨e, he⟩ := (decode_error_iff f).mpr hill
  rw [step_illegal hf he, illegalCommand, unlessFaulted_ready (s := { s with inbox := rest }) hs]
  rfl

theorem step_illegal_faulted {s : State} {f : List Byte} {rest : List HostEvent} {c : FaultCode}
    (hf : s.inbox = .frame f :: rest) (hill : IllegalByRule f) (hs : s.fault = some c) :
    step s = .next { s with inbox := rest, outbox := s.outbox ++ [[0x80 ||| c.code.setWidth 8]] } := by
  obtain ⟨e, he⟩ := (decode_error_iff f).mpr hill
  rw [step_illegal hf he, illegalCommand, unlessFaulted_faulted (s := { s with inbox := rest }) hs]
  rfl

/-- Settles O4: format by format, the decoder's rejections are the rule's clauses. -/
theorem illegalFramesAreExactlyTheListed : Obligations.IllegalFramesAreExactlyTheListed :=
  ⟨decode_error_iff, fun _ _ _ => step_illegal_ready, fun _ _ _ _ => step_illegal_faulted⟩

end Sys2Proof
end

/-! PROOFS. Every frame gets one response with a listed status (spec/30_encoding.md R72, R74), and in a state that meets the
invariant the response is given: no access falls outside PK.BUF (spec/41_bitpacker.md R96). -/
section
namespace Sys2Proof.Machine

/-! ### One response -/

theorem status_mem_legalStatuses (r : Response) : r.status ∈ legalStatuses := by
  cases r with
  | error e => cases e <;> decide
  | fault c => cases c <;> decide
  | _ => exact List.mem_cons_self

/-- The state `t` is what one response leaves of `s`: the response is added to the outbox, the inbox stays. -/
def AnswersOnce (s t : State) : Prop := t.inbox = s.inbox ∧ ∃ r : Response, t.outbox = s.outbox ++ [r.bytes]

theorem effect_queues {i : Instr} {s u : State} {r : Response} (h : Effect i s u r) :
    u.inbox = s.inbox ∧ u.outbox = s.outbox := by
  cases i with
  | pkInit wc =>
    obtain ⟨p, -, rfl, -⟩ := h
    exact ⟨rfl, rfl⟩
  | pkWrite11 v =>
    obtain ⟨p, -, rfl, -⟩ := h
    exact ⟨rfl, rfl⟩
  | pkFinish =>
    obtain ⟨p, -, rfl, -⟩ := h
    exact ⟨rfl, rfl⟩
  | pkTake =>
    obtain ⟨bytes, -, rfl, -⟩ := h
    exact ⟨rfl, rfl⟩
  | upInit slice =>
    obtain ⟨-, rfl, -⟩ := h
    exact ⟨rfl, rfl⟩
  | upRead11 =>
    obtain ⟨v, w, -, rfl, -⟩ := h
    exact ⟨rfl, rfl⟩
  | mnEncode entropy =>
    obtain ⟨g, -, rfl, -⟩ := h
    exact ⟨rfl, rfl⟩
  | mnDecode tokens =>
    obtain ⟨g, entropy, -, rfl, -⟩ := h
    exact ⟨rfl, rfl⟩

theorem exec_answersOnce {i : Instr} {s t : State} (h : exec i s = .next t) : AnswersOnce s t := by
  obtain ⟨c, -, rfl⟩ | ⟨-, ⟨e, rfl⟩ | ⟨c, rfl⟩ | ⟨u, r, hu, rfl⟩⟩ := exec_cases h
  · exact ⟨rfl, .fault c, rfl⟩
  · exact ⟨rfl, .error e, rfl⟩
  · exact ⟨rfl, .fault c, rfl⟩
  · obtain ⟨hin, hout⟩ := effect_queues hu
    exact ⟨hin, r, by rw [respond_outbox, hout]⟩

theorem illegalCommand_answersOnce {s t : State} (h : illegalCommand s = .next t) : AnswersOnce s t := by
  obtain ⟨c, -, rfl⟩ | ⟨-, rfl⟩ := illegalCommand_cases h
  · exact ⟨rfl, .fault c, rfl⟩
  · exact ⟨rfl, .fault .badCommand, rfl⟩

theorem step_frame_answersOnce {s t : State} {f : List Byte} {rest : List HostEvent} (hf : s.inbox = .frame f :: rest)
    (h : step s = .next t) : AnswersOnce { s with inbox := rest } t := by
  cases hd : decode f with
  | ok i => exact exec_answersOnce (step_legal hf hd ▸ h)
  | error e => exact illegalCommand_answersOnce (step_illegal hf hd ▸ h)

/-! ### The response is given -/

/-- An operation that does not step outside PK.BUF. -/
def StaysInside {α : Type} (x : Except Stop α) : Prop := ∀ i, x ≠ .error (.outside i)

theorem staysInside_ok {α : Type} (a : α) : StaysInside (Except.ok a) := nofun

theorem staysInside_fail {α : Type} (e : MnError) : StaysInside (.error (.fail e) : Except Stop α) := nofun

theorem staysInside_raise {α : Type} (c : FaultCode) : StaysInside (.error (.raise c) : Except Stop α) := nofun

/-- An operation that passes on the stop of one that stays inside. -/
theorem StaysInside.passOn {α β : Type} {x : Except Stop α} {e : Stop} (hx : StaysInside x) (h : x = .error e) :
    StaysInside (.error e : Except Stop β) := by
  rintro i hi
  obtain rfl := Except.error.inj hi
  exact hx i h

theorem packerWrite11_staysInside {p : Packer} (v : Group) (h : PackerInv p) : StaysInside (packerWrite11 v p) := by
  unfold packerWrite11
  split
  · next hopen =>
    split
    · next hcnt =>
      obtain ⟨hlen, hnacc⟩ := h.open_len hopen
      have hwc : p.wc.toNat ≤ 24 := h.wc_le
      have hsize : Config.pkBufBytes = 34 := rfl
      have hroom : p.len.toNat + (p.nacc.toNat + 11) / 8 ≤ Config.pkBufBytes := by omega
      rw [append11_ok_iff_appended.mpr ⟨hroom, rfl⟩]
      exact staysInside_ok _
    · exact staysInside_raise _
  · exact staysInside_raise _

theorem packerFinish_staysInside {p : Packer} (align : Config.FinalAlign) (h : PackerInv p) :
    StaysInside (packerFinish align p) := by
  by_cases hopen : p.phase = .opened
  · obtain ⟨hlen, hnacc⟩ := h.open_len hopen
    have hwc : p.wc.toNat ≤ 24 := h.wc_le
    have hcnt := h.cnt_le
    have hsize : Config.pkBufBytes = 34 := rfl
    obtain hnone | hsome := Nat.eq_zero_or_pos p.nacc.toNat
    · rw [packerFinish_ok_iff.mpr ⟨hopen, .inl ⟨hnone, rfl⟩⟩]
      exact staysInside_ok _
    · rw [packerFinish_ok_iff.mpr ⟨hopen, .inr ⟨hsome, by omega, rfl⟩⟩]
      exact staysInside_ok _
  · rw [packerFinish, if_neg hopen]
    exact staysInside_raise _

theorem packerTake_staysInside {p : Packer} (h : PackerInv p) : StaysInside (packerTake p) := by
  by_cases hdone : p.phase = .done
  · obtain ⟨hlen, -⟩ := h.done_len hdone
    have hwc : p.wc.toNat ≤ 24 := h.wc_le
    have hcnt := h.cnt_le
    have hsize : Config.pkBufBytes = 34 := rfl
    rw [packerTake_ok_iff.mpr ⟨hdone, by omega, rfl⟩]
    exact staysInside_ok _
  · rw [packerTake, if_neg hdone]
    exact staysInside_raise _

theorem packerInit_staysInside (wc : BitVec 11) (p : Packer) : StaysInside (packerInit wc p) := by
  unfold packerInit
  split
  · exact staysInside_ok _
  · exact staysInside_raise _

theorem unpackerRead11_staysInside (u : Unpacker) : StaysInside (unpackerRead11 u) := by
  unfold unpackerRead11
  split
  · split
    · exact staysInside_ok _
    · exact staysInside_raise _
  · exact staysInside_raise _

theorem readGroups_staysInside (n : Nat) (u : Unpacker) : StaysInside (readGroups n u) := by
  induction n generalizing u with
  | zero => exact staysInside_ok _
  | succ n ih =>
    rw [readGroups]
    split
    · exact (unpackerRead11_staysInside u).passOn ‹_›
    · next v u' _ =>
      split
      · exact (ih u').passOn ‹_›
      · exact staysInside_ok _

theorem fvElen_staysInside (l : Nat) : StaysInside (fvElen l) := by
  unfold fvElen
  split
  · exact staysInside_ok _
  · exact staysInside_fail _

theorem fvWcnt_staysInside (n : Nat) : StaysInside (fvWcnt n) := by
  unfold fvWcnt
  split
  · exact staysInside_ok _
  · exact staysInside_fail _

theorem fvCsum_staysInside (align : Config.FinalAlign) (h1 : List Byte → Byte) (a : List Byte) (n : Nat) :
    StaysInside (fvCsum align h1 a n) := by
  unfold fvCsum
  dsimp only
  split
  · exact staysInside_ok _
  · exact staysInside_fail _

theorem lookupCheck_staysInside (ts : List Token) : StaysInside (lookupCheck ts) := by
  induction ts with
  | nil => exact staysInside_ok _
  | cons t ts ih =>
    rw [lookupCheck]
    split
    · exact staysInside_fail _
    · exact ih

theorem packAll_staysInside (vs : List Group) {p : Packer} (h : PackerInv p) : StaysInside (packAll vs p) := by
  induction vs generalizing p with
  | nil => exact staysInside_ok _
  | cons v vs ih =>
    rw [packAll]
    split
    · exact (packerWrite11_staysInside v h).passOn ‹_›
    · exact ih (packerInv_packerWrite11 h ‹_›)

theorem packerInv_packAll {vs : List Group} {p q : Packer} (h : PackerInv p) (hq : packAll vs p = .ok q) :
    PackerInv q := by
  induction vs generalizing p with
  | nil =>
    obtain rfl := Except.ok.inj hq
    exact h
  | cons v vs ih =>
    rw [packAll] at hq
    split at hq
    · cases hq
    · exact ih (packerInv_packerWrite11 h ‹_›) hq

theorem packIndices_staysInside (align : Config.FinalAlign) (vs : List Group) : StaysInside (packIndices align vs) := by
  unfold packIndices
  split
  · exact (packerInit_staysInside _ _).passOn ‹_›
  · have h0 := packerInv_packerInit packerInv_reset ‹_›
    split
    · exact (packAll_staysInside vs h0).passOn ‹_›
    · have h1 := packerInv_packAll h0 ‹_›
      split
      · exact (packerFinish_staysInside align h1).passOn ‹_›
      · exact packerTake_staysInside (packerInv_packerFinish h1 ‹_›)

theorem codecEncode_staysInside (h1 : List Byte → Byte) (entropy : List Byte) :
    StaysInside (codecEncode h1 entropy) := by
  unfold codecEncode
  split
  · exact (fvElen_staysInside _).passOn ‹_›
  · exact readGroups_staysInside _ _

theorem codecDecode_staysInside (align : Config.FinalAlign) (h1 : List Byte → Byte) (tokens : List Token) :
    StaysInside (codecDecode align h1 tokens) := by
  unfold codecDecode
  split
  · exact (fvWcnt_staysInside _).passOn ‹_›
  · split
    · exact (lookupCheck_staysInside _).passOn ‹_›
    · split
      · exact (packIndices_staysInside align _).passOn ‹_›
      · split
        · exact (fvCsum_staysInside align h1 _ _).passOn ‹_›
        · exact staysInside_ok _

theorem unlessFaulted_takesStep {s : State} {o : Host.Outcome State Fault Refusal} (h : ∃ t, o = .next t) :
    ∃ t, unlessFaulted s o = .next t := by
  cases hf : s.fault with
  | none => rwa [unlessFaulted_ready hf]
  | some c => exact ⟨_, unlessFaulted_faulted hf o⟩

theorem command_takesStep (s : State) {op : Except Stop (State × Response)} (h : StaysInside op) :
    ∃ t, command s op = .next t := by
  apply unlessFaulted_takesStep
  match op, h with
  | .ok (u, r), _ => exact ⟨_, rfl⟩
  | .error (.fail e), _ => exact ⟨_, rfl⟩
  | .error (.raise c), _ => exact ⟨_, rfl⟩
  | .error (.outside i), h => exact absurd rfl (h i)

theorem packerCommand_takesStep (s : State) {x : Except Stop Packer} (h : StaysInside x) :
    ∃ t, packerCommand s x = .next t := by
  apply command_takesStep
  split
  · exact staysInside_ok _
  · exact h.passOn rfl

theorem exec_takesStep {i : Instr} {s : State} (hi : i.wellFormed = true) (hs : s.Inv) : ∃ t, exec i s = .next t := by
  cases i with
  | pkInit wc => exact packerCommand_takesStep s (packerInit_staysInside wc s.pk)
  | pkWrite11 v => exact packerCommand_takesStep s (packerWrite11_staysInside v hs.packer)
  | pkFinish => exact packerCommand_takesStep s (packerFinish_staysInside _ hs.packer)
  | pkTake =>
    apply command_takesStep
    split
    · exact staysInside_ok _
    · exact (packerTake_staysInside hs.packer).passOn ‹_›
  | upInit slice =>
    rw [exec, execUpInit, if_pos (of_decide_eq_true hi)]
    exact command_takesStep s (staysInside_ok _)
  | upRead11 =>
    apply command_takesStep
    split
    · exact staysInside_ok _
    · exact (unpackerRead11_staysInside s.up).passOn ‹_›
  | mnEncode entropy =>
    apply command_takesStep
    split
    · exact staysInside_ok _
    · exact (codecEncode_staysInside Sha256.h1 entropy).passOn ‹_›
  | mnDecode tokens =>
    apply command_takesStep
    split
    · exact staysInside_ok _
    · exact (codecDecode_staysInside Config.pkFinalAlign Sha256.h1 tokens).passOn ‹_›

theorem illegalCommand_takesStep (s : State) : ∃ t, illegalCommand s = .next t := unlessFaulted_takesStep ⟨_, rfl⟩

theorem step_frame_takesStep {s : State} {f : List Byte} {rest : List HostEvent} (hs : s.Inv)
    (hf : s.inbox = .frame f :: rest) : ∃ t, step s = .next t := by
  cases hd : decode f with
  | ok i =>
    rw [step_legal hf hd]
    exact exec_takesStep (encode_of_decode hd).1 (inv_with_inbox hs rest)
  | error e =>
    rw [step_illegal hf hd]
    exact illegalCommand_takesStep _

end Sys2Proof.Machine

namespace Sys2Proof
open Machine

/-- Settles O15: every way a command ends adds one response; under the invariant no operation steps outside PK.BUF, and a
decoded command is well formed. -/
theorem everyFrameGetsOneResponse : Obligations.EveryFrameGetsOneResponse := by
  refine ⟨fun s t f rest hf h => ?_, fun s f rest => step_frame_takesStep⟩
  obtain ⟨hin, r, hout⟩ := step_frame_answersOnce hf h
  exact ⟨hin, r.status, r.payload, hout, status_mem_legalStatuses r⟩

end Sys2Proof
end

/-! PROOFS. The step on a placed table word (log 3, spec/30_encoding.md R66). -/
section
namespace Sys2Proof
open Machine

/-- Settles O6: the placed frame is the next event, and taking it leaves the state itself. -/
theorem placedWordRunsNext : Obligations.PlacedWordRunsNext := by
  intro s nbits w i h
  rw [decodeTableWord] at h
  split at h
  · next hd =>
    obtain rfl := Option.some.inj h
    exact step_legal (placeFrame_inbox _ s) hd
  · cases h

end Sys2Proof
end

/-! PROOFS. The window form of a group (spec/30_encoding.md R77, spec/42_bitunpacker.md R112). -/
section
namespace Sys2Proof.Machine

/-- The number of a group's 11 bits (R43). -/
theorem groupAt_eq_numberOf (bytes : Nat → Byte) (p : Nat) :
    groupAt bytes p = BitVec.ofNat 11 (numberOf ((List.range 11).map fun j => streamBit bytes (p + j))) := rfl

theorem testBit_groupNumber (bytes : Nat → Byte) (p : Nat) {j : Nat} (h : j < 11) :
    (numberOf ((List.range 11).map fun j => streamBit bytes (p + j))).testBit (10 - j) = streamBit bytes (p + j) := by
  have hlen : ((List.range 11).map fun j => streamBit bytes (p + j)).length = 11 := by simp
  have hbit := testBit_numberOf ((List.range 11).map fun j => streamBit bytes (p + j)) (i := j) (by omega)
  rw [hlen] at hbit
  have hget : ((List.range 11).map fun j => streamBit bytes (p + j)).getD j false = streamBit bytes (p + j) := by
    rw [List.getD_eq_getElem _ _ (by omega), List.getElem_map, List.getElem_range]
  rw [← hget, ← hbit]

theorem getLsbD_groupAt (bytes : Nat → Byte) (p : Nat) {j : Nat} (h : j < 11) :
    (groupAt bytes p).getLsbD (10 - j) = streamBit bytes (p + j) := by
  rw [groupAt_eq_numberOf, BitVec.getLsbD_ofNat, testBit_groupNumber bytes p h,
    decide_eq_true (by omega : 10 - j < 11), Bool.true_and]

/-- Two groups are equal if their bits are, from the most significant one on. -/
theorem group_ext {v w : Group} (h : ∀ j, j < 11 → v.getLsbD (10 - j) = w.getLsbD (10 - j)) : v = w := by
  apply BitVec.eq_of_getLsbD_eq
  intro i hi
  have hback : 10 - (10 - i) = i := by omega
  rw [← hback]
  exact h (10 - i) (by omega)

/-- Bit `m` of three bytes in a row, the first bit most significant. -/
theorem testBit_threeBytes (a b c : Byte) {m : Nat} (h : m < 24) :
    (a.toNat * 65536 + b.toNat * 256 + c.toNat).testBit (23 - m) =
      if m < 8 then a.getLsbD (7 - m) else if m < 16 then b.getLsbD (15 - m) else c.getLsbD (23 - m) := by
  have hsum : a.toNat * 65536 + b.toNat * 256 + c.toNat = (a ++ b ++ c).toNat := by
    rw [toNat_append_byte, toNat_append_byte]
    omega
  rw [hsum, BitVec.testBit_toNat, BitVec.getLsbD_append, BitVec.getLsbD_append]
  by_cases h8 : m < 8
  · rw [if_pos h8, if_neg (by omega), if_neg (by omega)]
    congr 1
    omega
  · by_cases h16 : m < 16
    · rw [if_neg h8, if_pos h16, if_neg (by omega), if_pos (by omega)]
      congr 1
      omega
    · rw [if_neg h8, if_neg h16, if_pos (by omega)]

/-- The third byte of the window counts from offset 6 on. -/
def windowThird (bytes : Nat → Byte) (p : Nat) : Byte := if 6 ≤ p % 8 then bytes (p / 8 + 2) else 0#8

theorem windowGroup_eq (bytes : Nat → Byte) (p : Nat) :
    windowGroup bytes p = BitVec.ofNat 11 (((bytes (p / 8)).toNat * 65536 + (bytes (p / 8 + 1)).toNat * 256 +
      (windowThird bytes p).toNat) >>> (13 - p % 8)) := by
  rw [windowGroup, windowThird, apply_ite BitVec.toNat]
  rfl

theorem getLsbD_windowGroup (bytes : Nat → Byte) (p : Nat) {j : Nat} (h : j < 11) :
    (windowGroup bytes p).getLsbD (10 - j) = streamBit bytes (p + j) := by
  have hshift : 13 - p % 8 + (10 - j) = 23 - (p % 8 + j) := by omega
  rw [windowGroup_eq, BitVec.getLsbD_ofNat, Nat.testBit_shiftRight, hshift, testBit_threeBytes _ _ _ (by omega),
    decide_eq_true (by omega : 10 - j < 11), Bool.true_and, streamBit]
  by_cases h8 : p % 8 + j < 8
  · have hbyte : (p + j) / 8 = p / 8 := by omega
    have hbit : 7 - (p + j) % 8 = 7 - (p % 8 + j) := by omega
    rw [if_pos h8, hbyte, hbit]
  · by_cases h16 : p % 8 + j < 16
    · have hbyte : (p + j) / 8 = p / 8 + 1 := by omega
      have hbit : 7 - (p + j) % 8 = 15 - (p % 8 + j) := by omega
      rw [if_neg h8, if_pos h16, hbyte, hbit]
    · have hbyte : (p + j) / 8 = p / 8 + 2 := by omega
      have hbit : 7 - (p + j) % 8 = 23 - (p % 8 + j) := by omega
      rw [if_neg h8, if_neg h16, windowThird, if_pos (by omega), hbyte, hbit]

end Sys2Proof.Machine

namespace Sys2Proof
open Machine

/-- Settles O35: each bit of the window form is the stream's, in the first, the second or the third byte. -/
theorem windowFormAgreesWithBitForm : Obligations.WindowFormAgreesWithBitForm :=
  fun bytes p => group_ext fun _ hj => by rw [getLsbD_windowGroup bytes p hj, getLsbD_groupAt bytes p hj]

end Sys2Proof
end

/-! PROOFS. The groups that encoding answers (spec/30_encoding.md R61, R62, spec/44_codec.md R130): all 11-bit groups of the
entropy and the hash byte, the last of which ends with the checksum bits. -/
section
namespace Sys2Proof.Machine

/-! ### Reading all groups -/

/-- Reads that stay in the slice answer its groups from the cursor on. -/
theorem readGroups_eq {n : Nat} {u : Unpacker} (hbound : u.phase = .bound)
    (hfits : u.pos.toNat + 11 * n ≤ 8 * u.len.toNat) :
    readGroups n u = .ok ((List.range n).map fun k => groupAt u.byteAt (u.pos.toNat + 11 * k)) := by
  induction n generalizing u with
  | zero => rfl
  | succ n ih =>
    have hlen := u.len.isLt
    have hpos : (u.pos + 11#14).toNat = u.pos.toNat + 11 := by
      rw [BitVec.toNat_add_of_lt (by rw [BitVec.toNat_ofNat]; omega)]
      rfl
    have hread : unpackerRead11 u = .ok (groupAt u.byteAt u.pos.toNat, { u with pos := u.pos + 11#14 }) :=
      unpackerRead11_ok_iff.mpr ⟨hbound, by omega, rfl, rfl⟩
    have hrest : readGroups n { u with pos := u.pos + 11#14 } =
        .ok ((List.range n).map fun k => groupAt u.byteAt (u.pos.toNat + 11 + 11 * k)) := by
      rw [← hpos]
      have hfits' : (u.pos + 11#14).toNat + 11 * n ≤ 8 * u.len.toNat := by omega
      exact ih hbound hfits'
    have hnext (k : Nat) : u.pos.toNat + 11 * (k + 1) = u.pos.toNat + 11 + 11 * k := by omega
    simp [readGroups, hread, hrest, List.range_succ_eq_map, Function.comp_def, hnext]

theorem byteAt_unpackerInit {slice : List Byte} (u : Unpacker) {k : Nat} (h : k < slice.length) :
    (unpackerInit slice u).byteAt k = byteOf slice k := by
  rw [Unpacker.byteAt, unpackerInit, Memory.read_writeAll, if_pos (by omega)]
  rfl

/-! ### The encoding -/

theorem fvElen_ok_iff {l : Nat} : fvElen l = .ok () ↔ l ∈ Config.entLens := by
  have hmem : l ∈ Config.entLens ↔ 16 ≤ l ∧ l ≤ 32 ∧ l % 4 = 0 := by
    rw [mem_entLens_iff_exists_eq_four_mul]
    constructor
    · rintro ⟨k, hlo, hhi, rfl⟩
      omega
    · intro h
      exact ⟨l / 4, by omega⟩
  rw [hmem, fvElen]
  split <;> simp_all

/-- The groups of the entropy followed by the hash byte (R61). -/
def encodedGroups (h1 : List Byte → Byte) (E : List Byte) : List Group :=
  (List.range (fvWords E.length)).map fun k => groupAt (byteOf (E ++ [h1 E])) (11 * k)

/-- Encoding accepts the legal lengths and answers the groups of the entropy and the hash byte. -/
theorem codecEncode_ok_iff {h1 : List Byte → Byte} {E : List Byte} {g : List Group} :
    codecEncode h1 E = .ok g ↔ E.length ∈ Config.entLens ∧ g = encodedGroups h1 E := by
  have hlegal (h : E.length ∈ Config.entLens) : codecEncode h1 E = .ok (encodedGroups h1 E) := by
    obtain ⟨m, hlo, hhi, hm⟩ := (mem_entLens_iff_exists_eq_four_mul _).mp h
    have hlength : (E ++ [h1 E]).length = 4 * m + 1 := by simp [hm]
    have hwords : fvWords E.length = 3 * m := by rw [hm, fvWords_four_mul]
    have hlen := unpackerInit_len (slice := E ++ [h1 E]) Unpacker.reset (by rw [hlength, Config.upCap]; omega)
    rw [codecEncode, fvElen_ok_iff.mpr h]
    refine (readGroups_eq rfl ?_).trans (congrArg Except.ok (List.map_congr_left fun k hk => ?_))
    · rw [hlen, hlength, hwords]
      show 0 + 11 * (3 * m) ≤ _
      omega
    · rw [hwords, List.mem_range] at hk
      show groupAt _ (0 + 11 * k) = _
      rw [Nat.zero_add]
      exact groupAt_congr fun j hj => byteAt_unpackerInit _ (by omega)
  constructor
  · intro h
    have hok : E.length ∈ Config.entLens := by
      rw [← fvElen_ok_iff]
      unfold codecEncode at h
      split at h
      · cases h
      · assumption
    exact ⟨hok, Except.ok.inj (h.symm.trans (hlegal hok))⟩
  · rintro ⟨hok, rfl⟩
    exact hlegal hok

/-! ### The bits of the checksum -/

theorem bitOf_append_of_lt {E : List Byte} (b : Byte) {i : Nat} (h : i < 8 * E.length) :
    bitOf (E ++ [b]) i = bitOf E i := by
  rw [bitOf, bitOf, streamBit, streamBit, byteOf, byteOf, List.getD_append _ _ _ _ (by omega)]

theorem bitOf_append_last (E : List Byte) (b : Byte) {q : Nat} (h : q < 8) :
    bitOf (E ++ [b]) (8 * E.length + q) = b.getLsbD (7 - q) := by
  have hindex : (8 * E.length + q) / 8 = E.length := by omega
  have hbit : (8 * E.length + q) % 8 = q := by omega
  rw [bitOf, streamBit, byteOf, hindex, hbit, List.getD_append_right _ _ _ _ (Nat.le_refl _), Nat.sub_self]
  rfl

/-- The top `m` bits of a byte are the bits of its quotient. -/
theorem getLsbD_eq_testBit_div (b : Byte) {m q : Nat} (hm : m ≤ 8) (hq : q < m) :
    b.getLsbD (7 - q) = (b.toNat / 2 ^ (8 - m)).testBit (m - 1 - q) := by
  have hpos : 8 - m + (m - 1 - q) = 7 - q := by omega
  rw [Nat.testBit_div_two_pow, Nat.add_comm, hpos, BitVec.getLsbD]

theorem numberOf_topBits (b : Byte) {m : Nat} (hm : m ≤ 8) :
    numberOf ((List.range m).map fun q => b.getLsbD (7 - q)) = b.toNat / 2 ^ (8 - m) := by
  induction m with
  | zero => exact (Nat.div_eq_of_lt b.isLt).symm
  | succ m ih =>
    have hhalf : b.toNat / 2 ^ (8 - m) = b.toNat / 2 ^ (7 - m) / 2 := by
      rw [Nat.div_div_eq_div_mul, ← Nat.pow_succ]
      congr 2
      omega
    have hexp : 8 - (m + 1) = 7 - m := by omega
    rw [List.range_succ, List.map_append, List.map_singleton, numberOf_append_singleton, ih (by omega), hhalf, hexp,
      BitVec.getLsbD, Nat.toNat_testBit]
    omega

/-- The bits up to the top `m` of the last byte depend on that byte's quotient alone. -/
theorem bitOf_append_congr {E : List Byte} {b b' : Byte} {m i : Nat} (hm : m ≤ 8)
    (hb : b.toNat / 2 ^ (8 - m) = b'.toNat / 2 ^ (8 - m)) (hi : i < 8 * E.length + m) :
    bitOf (E ++ [b]) i = bitOf (E ++ [b']) i := by
  by_cases hE : i < 8 * E.length
  · rw [bitOf_append_of_lt b hE, bitOf_append_of_lt b' hE]
  · obtain ⟨q, rfl⟩ := Nat.exists_eq_add_of_le (Nat.le_of_not_lt hE)
    have hq : q < m := by omega
    rw [bitOf_append_last E b (by omega), bitOf_append_last E b' (by omega), getLsbD_eq_testBit_div b hm hq,
      getLsbD_eq_testBit_div b' hm hq, hb]

/-- The groups take `m` bits of the hash byte, where `4 * m` is the entropy's length. -/
theorem encodedGroups_congr {h h' : List Byte → Byte} {E : List Byte} {m : Nat} (hE : E.length = 4 * m) (hm : m ≤ 8)
    (hb : (h E).toNat / 2 ^ (8 - m) = (h' E).toNat / 2 ^ (8 - m)) : encodedGroups h E = encodedGroups h' E := by
  refine List.map_congr_left fun k hk => group_ext fun j hj => ?_
  rw [hE, fvWords_four_mul, List.mem_range] at hk
  rw [getLsbD_groupAt _ _ hj, getLsbD_groupAt _ _ hj]
  exact bitOf_append_congr hm hb (by omega)

theorem toNat_groupAt (bytes : Nat → Byte) (p : Nat) :
    (groupAt bytes p).toNat = numberOf ((List.range 11).map fun j => streamBit bytes (p + j)) := by
  have hlt := numberOf_lt ((List.range 11).map fun j => streamBit bytes (p + j))
  rw [List.length_map, List.length_range] at hlt
  rw [groupAt_eq_numberOf, BitVec.toNat_ofNat, Nat.mod_eq_of_lt hlt]

/-- The group that ends `m` bits into the last byte: the `11 - m` bits before that byte, then its top `m` bits. -/
theorem toNat_groupAt_append (E : List Byte) (b : Byte) {m : Nat} (hm : m ≤ 8) (hE : 11 ≤ 8 * E.length + m) :
    (groupAt (byteOf (E ++ [b])) (8 * E.length - (11 - m))).toNat =
      numberOf ((List.range (11 - m)).map fun j => bitOf E (8 * E.length - (11 - m) + j)) * 2 ^ m +
        b.toNat / 2 ^ (8 - m) := by
  have hsplit : List.range 11 = List.range (11 - m) ++ (List.range m).map (11 - m + ·) := by
    rw [← List.range_add]
    congr 1
    omega
  have hentropy : ((List.range (11 - m)).map fun j => bitOf (E ++ [b]) (8 * E.length - (11 - m) + j)) =
      (List.range (11 - m)).map fun j => bitOf E (8 * E.length - (11 - m) + j) :=
    List.map_congr_left fun j hj => by
      rw [List.mem_range] at hj
      exact bitOf_append_of_lt b (by omega)
  have hchecksum : ((List.range m).map fun q => bitOf (E ++ [b]) (8 * E.length - (11 - m) + (11 - m + q))) =
      (List.range m).map fun q => b.getLsbD (7 - q) :=
    List.map_congr_left fun q hq => by
      rw [List.mem_range] at hq
      have hpos : 8 * E.length - (11 - m) + (11 - m + q) = 8 * E.length + q := by omega
      rw [hpos, bitOf_append_last E b (by omega)]
  rw [toNat_groupAt, hsplit, List.map_append, List.map_map, numberOf_append, ← hentropy, ← numberOf_topBits b hm,
    ← hchecksum]
  simp [bitOf, Function.comp_def]

end Sys2Proof.Machine

namespace Sys2Proof
open Machine

/-- Settles O46: no group has a bit below the top bits of the hash byte. -/
theorem lowChecksumBitsAreNeverRead : Obligations.LowChecksumBitsAreNeverRead := by
  intro h h' E hlegal hb
  obtain ⟨m, hlo, hhi, hm⟩ := (mem_entLens_iff_exists_eq_four_mul _).mp hlegal
  have hquarter : E.length / 4 = m := by omega
  rw [hquarter] at hb
  rw [codecEncode_ok_iff.mpr ⟨hlegal, rfl⟩, codecEncode_ok_iff.mpr ⟨hlegal, rfl⟩, encodedGroups_congr hm hhi hb]

/-- Settles O47: of `3 * m` groups the last ends `m` bits into the hash byte. -/
theorem lastGroupCarriesTheChecksum : Obligations.LastGroupCarriesTheChecksum := by
  intro h1 E g h
  obtain ⟨hlegal, rfl⟩ := codecEncode_ok_iff.mp h
  obtain ⟨m, hlo, hhi, hm⟩ := (mem_entLens_iff_exists_eq_four_mul _).mp hlegal
  have hquarter : E.length / 4 = m := by omega
  have hwords : fvWords E.length = 3 * m - 1 + 1 := by rw [hm, fvWords_four_mul]; omega
  have hpos : 11 * (3 * m - 1) = 8 * E.length - (11 - m) := by omega
  refine ⟨by rw [encodedGroups, List.length_map, List.length_range, fvWords],
    groupAt (byteOf (E ++ [h1 E])) (11 * (3 * m - 1)), ?_, ?_⟩
  · rw [encodedGroups, hwords, List.range_succ, List.map_append, List.map_singleton, List.getLast?_concat]
  · rw [hquarter, hpos]
    exact toNat_groupAt_append E (h1 E) hhi (by omega)

end Sys2Proof
end

/-! PROOFS. A state that meets the invariant always takes a next step (spec/41_bitpacker.md R96, R200). -/
section
namespace Sys2Proof
open Machine

/-- Settles O19: an idle step and RST give a next state at once, and under the invariant a frame is answered. -/
theorem invariantStatesAlwaysStep : Obligations.InvariantStatesAlwaysStep := by
  intro s hs
  cases hin : s.inbox with
  | nil => exact ⟨s, step_idle hin⟩
  | cons ev rest =>
    cases ev with
    | rst => exact ⟨rst { s with inbox := rest }, by simp only [step, takeEvent, hin]⟩
    | rstDuring f => exact ⟨rst { s with inbox := rest }, by simp only [step, takeEvent, hin]⟩
    | frame f => exact step_frame_takesStep hs hin

end Sys2Proof
end

/-! PROOFS. The packer's four commands, each with its whole next state or the fields of it, and its faults
(spec/41_bitpacker.md R90 to R93). -/
section
namespace Sys2Proof.Machine

/-! ### How a command on a block without a fault ends -/

section
variable {s : State} (hs : s.fault = none)
include hs

theorem command_ok {x : Except Stop (State × Response)} {u : State} {r : Response} (hx : x = .ok (u, r)) :
    command s x = .next (respond r u) := by
  rw [command, unlessFaulted_ready hs, hx, conclude]

theorem command_raise {x : Except Stop (State × Response)} {c : FaultCode} (hx : x = .error (.raise c)) :
    command s x = .next (raiseFault c s) := by
  rw [command, unlessFaulted_ready hs, hx, conclude]

theorem packerCommand_ok {x : Except Stop Packer} {p : Packer} (hx : x = .ok p) :
    packerCommand s x = .next (respond .done { s with pk := p }) :=
  command_ok hs (by rw [hx])

theorem packerCommand_raise {x : Except Stop Packer} {c : FaultCode} (hx : x = .error (.raise c)) :
    packerCommand s x = .next (raiseFault c s) :=
  command_raise hs (by rw [hx])

theorem exec_pkTake_ok {bytes : List Byte} (h : packerTake s.pk = .ok bytes) :
    exec .pkTake s = .next (respond (.taken bytes) s) :=
  command_ok hs (by rw [h])

theorem exec_pkTake_raise {c : FaultCode} (h : packerTake s.pk = .error (.raise c)) :
    exec .pkTake s = .next (raiseFault c s) :=
  command_raise hs (by rw [h])

end

/-! ### The faults of the four operations -/

section
variable {p : Packer}

theorem packerInit_tooLarge {wc : BitVec 11} (h : Config.pkMaxWc < wc.toNat) :
    packerInit wc p = .error (.raise .pkCountTooLarge) :=
  if_neg (Nat.not_le_of_lt h)

theorem packerWrite11_notOpen (v : Group) (h : p.phase ≠ .opened) :
    packerWrite11 v p = .error (.raise .pkProtocol) :=
  if_neg h

theorem packerWrite11_full (v : Group) (hopen : p.phase = .opened) (h : p.wc.toNat ≤ p.cnt.toNat) :
    packerWrite11 v p = .error (.raise .pkOverflow) :=
  (if_pos hopen).trans (if_neg (Nat.not_lt_of_le h))

theorem packerFinish_notOpen (align : Config.FinalAlign) (h : p.phase ≠ .opened) :
    packerFinish align p = .error (.raise .pkProtocol) :=
  if_neg h

theorem packerTake_notDone (h : p.phase ≠ .done) : packerTake p = .error (.raise .pkProtocol) := if_neg h

end

/-! ### What the operations leave -/

theorem finalByte_high (p : Packer) :
    finalByte .high p = BitVec.ofNat 8 (p.acc.toNat * 2 ^ (8 - p.nacc.toNat)) := by
  rw [finalByte, Nat.shiftLeft_eq]

@[simp] theorem result_length (p : Packer) : p.result.length = p.len.toNat := by simp [Packer.result]

/-- The count byte of a result is PK.LEN. -/
theorem bytes_taken_result (p : Packer) :
    Response.bytes (.taken p.result) = 0x00 :: p.len.setWidth 8 :: (List.range p.len.toNat).map p.byteAt := by
  have hcount : countByte p.result.length = p.len.setWidth 8 := by
    rw [result_length, countByte, BitVec.ofNat_toNat]
  rw [Response.bytes, Response.payload, hcount]
  rfl

end Sys2Proof.Machine

namespace Sys2Proof
open Machine

/-- Settles O22: the construction is accepted up to 24 and faults above, and each gives its whole next state. -/
theorem pkInitConstructsThePacker : Obligations.PkInitConstructsThePacker :=
  fun _ _ hs => ⟨fun hwc => packerCommand_ok hs (packerInit_ok_iff.mpr ⟨hwc, rfl⟩),
    fun hwc => packerCommand_raise hs (packerInit_tooLarge hwc)⟩

/-- Settles O23: a write that passes its checks and has room leaves the packer with the whole bytes of W appended. -/
theorem pkWrite11AppendsElevenBits : Obligations.PkWrite11AppendsElevenBits := by
  intro v s hs
  refine ⟨fun hopen hcnt _ hroom => ?_, fun hnot => packerCommand_raise hs (packerWrite11_notOpen v hnot),
    fun hopen hfull => packerCommand_raise hs (packerWrite11_full v hopen hfull)⟩
  have hwrite : packerWrite11 v s.pk = .ok (s.pk.appended v) :=
    packerWrite11_ok_iff_appended.mpr ⟨hopen, hcnt, hroom, rfl⟩
  refine ⟨_, packerCommand_ok hs hwrite, appended_len v hroom, appended_nacc s.pk v, appended_acc s.pk v,
    appended_cnt_toNat s.pk v hcnt, fun j hj => ?_, appended_phase s.pk v, appended_wc s.pk v, rfl, hs, rfl, rfl⟩
  have hin : s.pk.len.toNat ≤ s.pk.len.toNat + j ∧
      s.pk.len.toNat + j < s.pk.len.toNat + (s.pk.nacc.toNat + 11) / 8 := by omega
  have hread := appended_read v hroom (s.pk.len.toNat + j)
  rw [if_pos hin, Nat.add_sub_cancel_left] at hread
  exact hread

/-- Settles O24: a finish pushes the left-aligned byte of a residue, if there is one. -/
theorem pkFinishFlushesLeftAligned : Obligations.PkFinishFlushesLeftAligned := by
  intro s hs
  refine ⟨fun hopen hnone => packerCommand_ok hs (packerFinish_ok_iff.mpr ⟨hopen, .inl ⟨hnone, rfl⟩⟩),
    fun hopen hsome hroom => ?_, fun hnot => packerCommand_raise hs (packerFinish_notOpen _ hnot)⟩
  have hfinish := packerFinish_ok_iff (align := Config.pkFinalAlign).mpr ⟨hopen, .inr ⟨hsome, hroom, rfl⟩⟩
  refine ⟨_, packerCommand_ok hs hfinish, rfl, rfl, rfl, pushed_len s.pk (finalByte .high s.pk) hroom, ?_, rfl, rfl,
    rfl, hs, rfl, rfl⟩
  rw [← finalByte_high]
  exact Memory.read_write_same _ _ _

/-- Settles O25: in phase DONE the answer is PK.LEN and the result. -/
theorem pkTakeAnswersTheBytes : Obligations.PkTakeAnswersTheBytes := by
  intro s hs
  refine ⟨fun hdone hlen => ?_, fun hnot => exec_pkTake_raise hs (packerTake_notDone hnot)⟩
  rw [exec_pkTake_ok hs (packerTake_ok_iff.mpr ⟨hdone, hlen, rfl⟩), respond, bytes_taken_result]

end Sys2Proof
end

/-! PROOFS. Packing jobs run through without a fault, and their result is the padded bit stream of the values written
(spec/41_bitpacker.md R94, R95). -/
section
namespace Sys2Proof.Machine

/-! ### The result of a finished packer -/

/-- A finished packer whose bytes are the bits of `vs` padded with zero bits (R94). -/
structure HoldsResult (vs : List Group) (p : Packer) : Prop where
  phase : p.phase = .done
  room : p.len.toNat ≤ Config.pkBufBytes
  len : p.len.toNat = (11 * vs.length + 7) / 8
  bits : ∀ i, i < 8 * p.len.toNat → streamBit p.byteAt i = (streamOf vs).getD i false

theorem streamOf_getD_of_le {vs : List Group} {i : Nat} (h : 11 * vs.length ≤ i) :
    (streamOf vs).getD i false = false :=
  List.getD_eq_default _ _ (by rw [streamOf_length]; exact h)

/-- The last byte holds the bits not yet stored, then zeros. -/
theorem finalByte_getLsbD {vs : List Group} {p : Packer} (h : HoldsValues vs p) {i : Nat}
    (hi : i / 8 = p.len.toNat) : (finalByte .high p).getLsbD (7 - i % 8) = (streamOf vs).getD i false := by
  have hlen := h.len
  have hnacc := h.nacc
  rw [finalByte, BitVec.getLsbD_ofNat, Nat.testBit_shiftLeft, decide_eq_true (by omega), Bool.true_and]
  by_cases hin : i < 11 * vs.length
  · have hrest : ((streamOf vs).drop (8 * p.len.toNat)).length = p.nacc.toNat := by
      rw [List.length_drop, streamOf_length]
      omega
    have hpos : 7 - i % 8 - (8 - p.nacc.toNat) = p.nacc.toNat - 1 - i % 8 := by omega
    have hback : 8 * p.len.toNat + i % 8 = i := by omega
    have hbit := testBit_numberOf ((streamOf vs).drop (8 * p.len.toNat)) (i := i % 8) (by omega)
    rw [decide_eq_true (by omega), Bool.true_and, hpos, h.acc, ← hrest, hbit, List.getD_eq_getElem?_getD,
      List.getElem?_drop, hback, List.getD_eq_getElem?_getD]
  · rw [decide_eq_false (by omega), Bool.false_and, streamOf_getD_of_le (by omega)]

theorem holdsResult_packerFinish {vs : List Group} {p q : Packer} (h : HoldsValues vs p)
    (hq : packerFinish .high p = .ok q) : HoldsResult vs q := by
  have hlen := h.len
  have hnacc := h.nacc
  have hcount := h.count_le
  have hwc : p.wc.toNat ≤ 24 := h.wc_le
  have hsize : Config.pkBufBytes = 34 := rfl
  obtain ⟨-, ⟨hnone, rfl⟩ | ⟨hsome, hroom, rfl⟩⟩ := packerFinish_ok_iff.mp hq
  · exact
      { phase := rfl
        room := by show p.len.toNat ≤ _; omega
        len := by show p.len.toNat = _; omega
        bits := h.bits }
  · have hlen' := pushed_len p (finalByte .high p) hroom
    exact
      { phase := rfl
        room := by show (p.pushed (finalByte .high p)).len.toNat ≤ _; omega
        len := by show (p.pushed (finalByte .high p)).len.toNat = _; omega
        bits := fun i hi => by
          have hi' : i < 8 * (p.pushed (finalByte .high p)).len.toNat := hi
          show ((p.pushed (finalByte .high p)).byteAt (i / 8)).getLsbD (7 - i % 8) = _
          rw [byteAt_pushed]
          split
          · next hlast => exact finalByte_getLsbD h hlast.symm
          · exact h.bits i (by omega) }

theorem byteOf_result (p : Packer) {k : Nat} (h : k < p.len.toNat) : byteOf p.result k = p.byteAt k := by
  rw [byteOf, List.getD_eq_getElem _ _ (by simpa using h)]
  simp [Packer.result]

theorem HoldsResult.bitOf_result {vs : List Group} {p : Packer} (h : HoldsResult vs p) {i : Nat}
    (hi : i < 8 * p.result.length) : bitOf p.result i = (streamOf vs).getD i false := by
  rw [result_length] at hi
  rw [bitOf, streamBit, byteOf_result p (by omega)]
  exact h.bits i hi

theorem HoldsResult.exec_pkTake {vs : List Group} {s : State} (h : HoldsResult vs s.pk) (hs : s.Ready) :
    exec .pkTake s = .next (respond (.taken s.pk.result) s) :=
  exec_pkTake_ok hs (packerTake_ok_iff.mpr ⟨h.phase, h.room, rfl⟩)

/-! ### Runs of a packing job -/

theorem CleanRun.ready_after {is : List Instr} {s t : State} (h : CleanRun is s t) : t.Ready :=
  let ⟨_, _, ht⟩ := h
  ht

theorem cleanRun_nil_iff {s t : State} : CleanRun [] s t ↔ s.Ready ∧ s = t := by
  constructor
  · rintro ⟨hs, hrun, -⟩
    exact ⟨hs, Host.Outcome.next.inj hrun⟩
  · rintro ⟨hs, rfl⟩
    exact ⟨hs, rfl, hs⟩

/-- A safe run with one command more at its end, after which the block is not faulted. -/
theorem cleanRun_append_singleton_iff {is : List Instr} {i : Instr} {s t : State} :
    CleanRun (is ++ [i]) s t ↔ ∃ u, CleanRun is s u ∧ exec i u = .next t ∧ t.Ready := by
  induction is generalizing s with
  | nil =>
    rw [List.nil_append, cleanRun_cons_iff]
    constructor
    · rintro ⟨hs, u, hu, hrest⟩
      obtain ⟨ht, rfl⟩ := cleanRun_nil_iff.mp hrest
      exact ⟨s, cleanRun_nil_iff.mpr ⟨hs, rfl⟩, hu, ht⟩
    · rintro ⟨u, hsu, hu, ht⟩
      obtain ⟨hs, rfl⟩ := cleanRun_nil_iff.mp hsu
      exact ⟨hs, t, hu, cleanRun_nil_iff.mpr ⟨ht, rfl⟩⟩
  | cons j is ih =>
    rw [List.cons_append, cleanRun_cons_iff]
    constructor
    · rintro ⟨hs, u, hu, hrest⟩
      obtain ⟨w, huw, hlast⟩ := ih.mp hrest
      exact ⟨w, cleanRun_cons_iff.mpr ⟨hs, u, hu, huw⟩, hlast⟩
    · rintro ⟨w, hsw, hlast⟩
      obtain ⟨hs, u, hu, huw⟩ := cleanRun_cons_iff.mp hsw
      exact ⟨hs, u, hu, ih.mpr ⟨w, huw, hlast⟩⟩

theorem packerFinish_ne_fail (align : Config.FinalAlign) (p : Packer) (e : MnError) :
    packerFinish align p ≠ .error (.fail e) := by
  unfold packerFinish
  split
  · split
    · split
      · simp
      · next hpush =>
        intro h
        obtain ⟨i, hi⟩ := push_error (Except.error.inj h ▸ hpush)
        cases hi
    · simp
  · simp

/-- A packer below its declared count has room for the next value (R96). -/
theorem HoldsValues.packerWrite11_ok {vs : List Group} {p : Packer} (h : HoldsValues vs p) (v : Group)
    (hcount : vs.length < p.wc.toNat) : packerWrite11 v p = .ok (p.appended v) := by
  have hlen := h.len
  have hnacc := h.nacc
  have hwc : p.wc.toNat ≤ 24 := h.wc_le
  have hsize : Config.pkBufBytes = 34 := rfl
  exact packerWrite11_ok_iff_appended.mpr ⟨h.phase, by rw [h.cnt]; exact hcount, by omega, rfl⟩

/-- An open packer has room for its residue (R96). -/
theorem HoldsValues.exists_packerFinish_ok {vs : List Group} {p : Packer} (h : HoldsValues vs p) :
    ∃ q, packerFinish .high p = .ok q := by
  have hlen := h.len
  have hcount := h.count_le
  have hwc : p.wc.toNat ≤ 24 := h.wc_le
  have hsize : Config.pkBufBytes = 34 := rfl
  obtain hnone | hsome := Nat.eq_zero_or_pos p.nacc.toNat
  · exact ⟨_, packerFinish_ok_iff.mpr ⟨h.phase, .inl ⟨hnone, rfl⟩⟩⟩
  · exact ⟨_, packerFinish_ok_iff.mpr ⟨h.phase, .inr ⟨hsome, by omega, rfl⟩⟩⟩

section
variable {wc : BitVec 11} {s : State} (hs : s.Ready) (hwc : wc.toNat ≤ Config.pkMaxWc)
include hs hwc

/-- PK.INIT and as many writes as declared, or fewer, run without a fault. -/
theorem exists_cleanRun_writes (vs : List Group) (hcount : vs.length ≤ wc.toNat) :
    ∃ t, CleanRun (.pkInit wc :: vs.map .pkWrite11) s t ∧ HoldsValues vs t.pk ∧ t.pk.wc.toNat = wc.toNat := by
  induction vs using List.reverseRecOn with
  | nil =>
    have hinit := packerInit_ok_iff (p := s.pk).mpr ⟨hwc, rfl⟩
    have hcap : Config.pkMaxWc = 24 := rfl
    have hwide : (BitVec.ofNat 5 wc.toNat).toNat = wc.toNat := by
      rw [BitVec.toNat_ofNat, Nat.mod_eq_of_lt (by omega)]
    refine ⟨_, cleanRun_cons_iff.mpr ⟨hs, _, packerCommand_ok hs hinit, cleanRun_nil_iff.mpr ⟨hs, rfl⟩⟩,
      holdsValues_packerInit hinit, hwide⟩
  | append_singleton vs v ih =>
    rw [List.length_append, List.length_singleton] at hcount
    obtain ⟨t, hrun, hv, hwct⟩ := ih (by omega)
    have hwrite := hv.packerWrite11_ok v (by omega)
    have ht := hrun.ready_after
    have hrun' : CleanRun (.pkInit wc :: (vs ++ [v]).map .pkWrite11) s
        (respond .done { t with pk := t.pk.appended v }) := by
      rw [List.map_append, List.map_singleton, ← List.cons_append]
      exact cleanRun_append_singleton_iff.mpr ⟨t, hrun, packerCommand_ok ht hwrite, ht⟩
    exact ⟨_, hrun', holdsValues_packerWrite11 hv hwrite, (congrArg BitVec.toNat (appended_wc t.pk v)).trans hwct⟩

theorem exists_cleanRun_finish (vs : List Group) (hcount : vs.length ≤ wc.toNat) :
    ∃ t, CleanRun (.pkInit wc :: vs.map .pkWrite11 ++ [.pkFinish]) s t ∧ HoldsResult vs t.pk := by
  obtain ⟨t, hrun, hv, -⟩ := exists_cleanRun_writes hs hwc vs hcount
  obtain ⟨q, hq⟩ := hv.exists_packerFinish_ok
  have ht := hrun.ready_after
  exact ⟨_, cleanRun_append_singleton_iff.mpr ⟨t, hrun, packerCommand_ok ht hq, ht⟩, holdsResult_packerFinish hv hq⟩

/-- A packing job runs without a fault, and its last response is the result. -/
theorem exists_cleanRun_packingJob (vs : List Group) (hcount : vs.length ≤ wc.toNat) :
    ∃ t, CleanRun (packingJob wc vs) s t ∧ HoldsResult vs t.pk ∧
      t.outbox.getLast? = some (Response.taken t.pk.result).bytes := by
  obtain ⟨t, hrun, hr⟩ := exists_cleanRun_finish hs hwc vs hcount
  have ht := hrun.ready_after
  have hjob : packingJob wc vs = .pkInit wc :: vs.map .pkWrite11 ++ [.pkFinish] ++ [.pkTake] := by
    rw [packingJob, List.append_assoc]
    rfl
  rw [hjob]
  exact ⟨_, cleanRun_append_singleton_iff.mpr ⟨t, hrun, hr.exec_pkTake ht, ht⟩, hr, List.getLast?_concat⟩

end

end Sys2Proof.Machine

namespace Sys2Proof
open Machine

/-- Settles O27: the writes and the finish run through, and leave a packer that holds the values, or their result. -/
theorem registersAfterEachWrite : Obligations.RegistersAfterEachWrite := by
  intro wc vs s hs hwc hcount
  obtain ⟨t, hrun, hv, -⟩ := exists_cleanRun_writes hs hwc vs hcount
  obtain ⟨u, hrun', hr⟩ := exists_cleanRun_finish hs hwc vs hcount
  exact ⟨⟨t, hrun, hv.cnt, hv.len, hv.nacc⟩, u, hrun', hr.len⟩

/-- Settles O29: the packer that PK.FINISH met held the values written, so what it leaves is their padded stream. -/
theorem finishedPackerHoldsTheBitStream : Obligations.FinishedPackerHoldsTheBitStream := by
  intro wc is s t his h
  obtain ⟨u, hrun, hfinish, ht⟩ := cleanRun_append_singleton_iff.mp h
  have hv := holdsValues_of_cleanRun_pkInit his hrun
  have hr := holdsResult_packerFinish hv (packerCommand_ready (packerFinish_ne_fail _ u.pk) hfinish ht)
  have hlen := hr.len
  rw [← result_length] at hlen
  refine ⟨t.pk.result, hr.exec_pkTake ht, hlen, fun i hi => hr.bitOf_result (by omega), fun i hlo hhi => ?_⟩
  rw [hr.bitOf_result hhi, streamOf_getD_of_le hlo]

end Sys2Proof
end

/-! PROOFS. Packing and unpacking are inverse (spec/41_bitpacker.md R97): the groups of a byte sequence and the bit stream of
a list of values are two readings of the same bits. -/
section
namespace Sys2Proof.Machine

/-! ### Groups and bits -/

/-- The first `k` groups of a byte sequence (R61). -/
def groupsOf (bs : List Byte) (k : Nat) : List Group := (List.range k).map fun j => groupAt (byteOf bs) (11 * j)

@[simp] theorem groupsOf_length (bs : List Byte) (k : Nat) : (groupsOf bs k).length = k := by simp [groupsOf]

theorem groupsOf_getElem (bs : List Byte) {k j : Nat} (h : j < (groupsOf bs k).length) :
    (groupsOf bs k)[j] = groupAt (byteOf bs) (11 * j) := by simp [groupsOf]

theorem be11_getD (v : Group) {j : Nat} (h : j < 11) : (be11 v).getD j false = v.getLsbD (10 - j) := by
  rw [List.getD_eq_getElem _ _ (by simpa using h)]
  simp [be11]

/-- Bit `j` of value `k` is bit `11 * k + j` of the stream. -/
theorem streamOf_getD (vs : List Group) {k j : Nat} (hk : k < vs.length) (hj : j < 11) :
    (streamOf vs).getD (11 * k + j) false = vs[k].getLsbD (10 - j) := by
  induction vs generalizing k with
  | nil => exact absurd hk (Nat.not_lt_zero k)
  | cons v vs ih =>
    have hcons : streamOf (v :: vs) = be11 v ++ streamOf vs := rfl
    rw [hcons]
    cases k with
    | zero =>
      rw [Nat.mul_zero, Nat.zero_add, List.getD_append _ _ _ _ (by simpa using hj)]
      exact be11_getD v hj
    | succ k =>
      have hrest : 11 * (k + 1) + j - (be11 v).length = 11 * k + j := by rw [be11_length]; omega
      rw [List.getD_append_right _ _ _ _ (by rw [be11_length]; omega), hrest]
      exact ih (Nat.lt_of_succ_lt_succ hk)

/-- A byte sequence whose bits are the stream of `vs` has the groups `vs`. -/
theorem groupsOf_eq_of_bits {bs : List Byte} {vs : List Group}
    (h : ∀ i, i < 11 * vs.length → bitOf bs i = (streamOf vs).getD i false) : groupsOf bs vs.length = vs := by
  refine List.ext_getElem (groupsOf_length bs _) fun k _ hk => ?_
  rw [groupsOf_getElem]
  refine group_ext fun j hj => ?_
  rw [getLsbD_groupAt _ _ hj, ← streamOf_getD vs hk hj, ← h _ (by omega), bitOf]

/-- The stream of the groups of a byte sequence is the sequence's own bits. -/
theorem streamOf_groupsOf_getD (bs : List Byte) {k i : Nat} (h : i < 11 * k) :
    (streamOf (groupsOf bs k)).getD i false = bitOf bs i := by
  have hi : 11 * (i / 11) + i % 11 = i := by omega
  have hk : i / 11 < (groupsOf bs k).length := by rw [groupsOf_length]; omega
  have hj : i % 11 < 11 := by omega
  have hbit := streamOf_getD (groupsOf bs k) hk hj
  rwa [groupsOf_getElem, getLsbD_groupAt _ _ hj, hi] at hbit

/-! ### Runs of an unpacking job -/

/-- Reads that complete on the unpacker run as commands without a fault, each answering its value. -/
theorem exists_cleanRun_reads {n : Nat} {vs : List Group} {s : State} (hs : s.Ready)
    (h : readGroups n s.up = .ok vs) :
    ∃ t, CleanRun (List.replicate n .upRead11) s t ∧
      t.outbox = s.outbox ++ vs.map fun v => (Response.value v).bytes := by
  induction n generalizing s vs with
  | zero =>
    obtain rfl := Except.ok.inj h
    exact ⟨s, cleanRun_nil_iff.mpr ⟨hs, rfl⟩, (List.append_nil _).symm⟩
  | succ n ih =>
    rw [readGroups] at h
    split at h
    · cases h
    · next v u hread =>
      split at h
      · cases h
      · next ws hrest =>
        obtain rfl := Except.ok.inj h
        have hexec : exec .upRead11 s = .next (respond (.value v) { s with up := u }) :=
          command_ok hs (by rw [hread])
        obtain ⟨t, hrun, hout⟩ := ih (s := respond (.value v) { s with up := u }) hs hrest
        refine ⟨t, cleanRun_cons_iff.mpr ⟨hs, _, hexec, hrun⟩, ?_⟩
        rw [hout, respond_outbox, List.append_assoc, List.singleton_append, List.map_cons]

/-- A slice answers its groups in order, as many as lie within it. -/
theorem readGroups_unpackerInit {slice : List Byte} (u : Unpacker) {k : Nat} (hslice : slice.length ≤ Config.upCap)
    (hk : 11 * k ≤ 8 * slice.length) : readGroups k (unpackerInit slice u) = .ok (groupsOf slice k) := by
  have hstart : (unpackerInit slice u).pos.toNat = 0 := rfl
  rw [readGroups_eq rfl (by rw [hstart, unpackerInit_len u hslice]; omega), hstart]
  refine congrArg Except.ok (List.map_congr_left fun j hj => ?_)
  rw [List.mem_range] at hj
  rw [Nat.zero_add]
  exact groupAt_congr fun i hi => byteAt_unpackerInit u (by omega)

/-- An unpacking job within its slice runs without a fault and answers the slice's groups. -/
theorem exists_cleanRun_unpackingJob {slice : List Byte} {k : Nat} {s : State} (hs : s.Ready)
    (hslice : slice.length ≤ Config.upCap) (hk : 11 * k ≤ 8 * slice.length) :
    ∃ t, CleanRun (unpackingJob slice k) s t ∧
      t.outbox = s.outbox ++ [0x00] :: (groupsOf slice k).map fun v => 0x00 :: be16Bytes (v.setWidth 16) := by
  have hinit : exec (.upInit slice) s = .next (respond .done { s with up := unpackerInit slice s.up }) := by
    rw [exec, execUpInit, if_pos hslice]
    exact command_ok hs rfl
  obtain ⟨t, hrun, hout⟩ := exists_cleanRun_reads (s := respond .done { s with up := unpackerInit slice s.up }) hs
    (readGroups_unpackerInit s.up hslice hk)
  refine ⟨t, cleanRun_cons_iff.mpr ⟨hs, _, hinit, hrun⟩, ?_⟩
  rw [hout, respond_outbox, List.append_assoc]
  rfl

end Sys2Proof.Machine

namespace Sys2Proof
open Machine

/-- Settles O30: the result's bits are the stream of the values, so its groups are the values. -/
theorem unpackingInvertsPacking : Obligations.UnpackingInvertsPacking := by
  intro wc vs s hs hwc hcount
  obtain ⟨t, ⟨-, hpack, ht⟩, hr, hlast⟩ := exists_cleanRun_packingJob hs hwc vs hcount
  have hlen := hr.len
  rw [← result_length] at hlen
  have hcap : Config.upCap = 2047 := rfl
  obtain ⟨u, ⟨-, hunpack, hu⟩, hout⟩ :=
    exists_cleanRun_unpackingJob (slice := t.pk.result) (k := vs.length) ht (by omega) (by omega)
  rw [groupsOf_eq_of_bits fun i hi => hr.bitOf_result (by omega)] at hout
  exact ⟨t, t.pk.result, u, hpack, hlast, hunpack, hu, hout⟩

/-- Settles O31: the values read are the groups of the sequence, whose stream is the sequence's own bits. -/
theorem packingInvertsUnpacking : Obligations.PackingInvertsUnpacking := by
  intro B k s hs hB hk hfits
  obtain ⟨u, ⟨-, hunpack, hu⟩, hout⟩ := exists_cleanRun_unpackingJob hs hB hfits
  have hwc : (BitVec.ofNat 11 k).toNat = k := by rw [BitVec.toNat_ofNat, Nat.mod_eq_of_lt (by omega)]
  obtain ⟨t, ⟨-, hpack, -⟩, hr, hlast⟩ := exists_cleanRun_packingJob hu (wc := BitVec.ofNat 11 k)
    (by rw [hwc]; exact hk) (groupsOf B k) (by rw [hwc, groupsOf_length])
  have hlen := hr.len
  rw [← result_length, groupsOf_length] at hlen
  refine ⟨groupsOf B k, u, t, t.pk.result, groupsOf_length B k, hunpack, hout, hpack, hlast, hlen,
    fun i hi => ?_, fun i hlo hhi => ?_⟩
  · rw [hr.bitOf_result (by omega), streamOf_groupsOf_getD B hi]
  · rw [hr.bitOf_result hhi, streamOf_getD_of_le (by rwa [groupsOf_length])]

end Sys2Proof
end

/-! PROOFS. The unpacker's two commands (spec/42_bitunpacker.md R110, R111), and how many reads a slice answers (R114). -/
section
namespace Sys2Proof.Machine

/-! ### A group as a sum, and as two response bytes -/

/-- The number of `n` bits weighs each with its power of two (R43). -/
theorem numberOf_map_range_eq_sum (f : Nat → Bool) (n : Nat) :
    numberOf ((List.range n).map f) = ∑ j ∈ Finset.range n, (f j).toNat * 2 ^ (n - 1 - j) := by
  induction n with
  | zero => rfl
  | succ n ih =>
    have hdouble : ∀ j ∈ Finset.range n, 2 * ((f j).toNat * 2 ^ (n - 1 - j)) = (f j).toNat * 2 ^ (n - j) := by
      intro j hj
      rw [Finset.mem_range] at hj
      have hexp : n - j = n - 1 - j + 1 := by omega
      rw [hexp, Nat.pow_succ, Nat.mul_left_comm, Nat.mul_comm 2]
    rw [List.range_succ, List.map_append, List.map_singleton, numberOf_append_singleton, ih, Finset.mul_sum,
      Finset.sum_congr rfl hdouble, Finset.sum_range_succ, Nat.add_sub_cancel, Nat.sub_self, Nat.pow_zero, Nat.mul_one]

theorem toNat_groupAt_eq_groupSum (bytes : Nat → Byte) (p : Nat) : (groupAt bytes p).toNat = groupSum bytes p := by
  rw [toNat_groupAt, numberOf_map_range_eq_sum, groupSum]

theorem be16Bytes_eq_div_mod (x : Word16) :
    be16Bytes x = [BitVec.ofNat 8 (x.toNat / 256), BitVec.ofNat 8 (x.toNat % 256)] := by
  have hlow : x.extractLsb' 0 8 = BitVec.ofNat 8 (x.toNat % 256) := by
    apply BitVec.eq_of_toNat_eq
    simp
  rw [be16Bytes, hlow, BitVec.extractLsb', Nat.shiftRight_eq_div_pow]

/-- The response of a read: OK and the sum of R111 as a 16-bit field. -/
theorem bytes_value_groupAt (bytes : Nat → Byte) (p : Nat) :
    Response.bytes (.value (groupAt bytes p)) =
      [0x00, BitVec.ofNat 8 (groupSum bytes p / 256), BitVec.ofNat 8 (groupSum bytes p % 256)] := by
  have hwide : ((groupAt bytes p).setWidth 16).toNat = groupSum bytes p := by
    rw [BitVec.toNat_setWidth_of_le (by decide), toNat_groupAt_eq_groupSum]
  rw [Response.bytes, Response.payload, indexBytes, be16Bytes_eq_div_mod, hwide]
  rfl

/-! ### The commands on a block without a fault -/

/-- Every byte of the slice is in UP.BUF, at its own index. -/
theorem read_unpackerInit (slice : List Byte) (u : Unpacker) {k : Nat} (h : k < slice.length) :
    Memory.read (unpackerInit slice u).buf k = slice[k]? := by
  rw [unpackerInit, Memory.read_writeAll, if_pos (by omega), Nat.sub_zero, List.getD_eq_getElem _ _ h,
    List.getElem?_eq_getElem h]

theorem unpackerRead11_notBound {u : Unpacker} (h : u.phase ≠ .bound) :
    unpackerRead11 u = .error (.raise .upProtocol) :=
  if_neg h

theorem unpackerRead11_pastEnd {u : Unpacker} (hbound : u.phase = .bound) (h : 8 * u.len.toNat < u.pos.toNat + 11) :
    unpackerRead11 u = .error (.raise .upReadPastEnd) :=
  (if_pos hbound).trans (if_neg (Nat.not_le_of_lt h))

section
variable {s : State} (hs : s.fault = none)
include hs

theorem exec_upInit_ok {slice : List Byte} (h : slice.length ≤ Config.upCap) :
    exec (.upInit slice) s = .next (respond .done { s with up := unpackerInit slice s.up }) :=
  (if_pos h).trans (command_ok hs rfl)

theorem exec_upRead11_ok (hbound : s.up.phase = .bound) (hfits : s.up.pos.toNat + 11 ≤ 8 * s.up.len.toNat) :
    exec .upRead11 s = .next (respond (.value (groupAt s.up.byteAt s.up.pos.toNat))
      { s with up := { s.up with pos := BitVec.ofNat 14 (s.up.pos.toNat + 11) } }) := by
  have hpos : BitVec.ofNat 14 (s.up.pos.toNat + 11) = s.up.pos + 11#14 := by
    rw [BitVec.ofNat_add, BitVec.ofNat_toNat, BitVec.setWidth_eq]
  have hread := unpackerRead11_ok_iff.mpr ⟨hbound, hfits, rfl, rfl⟩
  rw [hpos]
  exact command_ok hs (by rw [hread])

theorem exec_upRead11_raise {c : FaultCode} (h : unpackerRead11 s.up = .error (.raise c)) :
    exec .upRead11 s = .next (raiseFault c s) :=
  command_raise hs (by rw [h])

end

/-! ### How many reads a slice answers -/

/-- Commands in a row that reach `t` leave the rest to `t`. -/
theorem execAll_append {is js : List Instr} {s t : State} (h : execAll is s = .next t) :
    execAll (is ++ js) s = execAll js t := by
  induction is generalizing s with
  | nil =>
    obtain rfl := Host.Outcome.next.inj h
    rfl
  | cons i is ih =>
    obtain ⟨u, hu, hrest⟩ := execAll_cons_iff.mp h
    rw [List.cons_append, execAll, hu]
    exact ih hrest

theorem unpackingJob_succ (slice : List Byte) (k : Nat) :
    unpackingJob slice (k + 1) = unpackingJob slice k ++ [.upRead11] := by
  rw [unpackingJob, List.replicate_succ', unpackingJob, List.cons_append]

/-- `k` reads within the slice complete, and leave the cursor 11 bits further each. -/
theorem exists_cleanRun_unpackingJob_pos {slice : List Byte} {k : Nat} {s : State} (hs : s.Ready)
    (hslice : slice.length ≤ Config.upCap) (hk : 11 * k ≤ 8 * slice.length) :
    ∃ t, CleanRun (unpackingJob slice k) s t ∧ t.up.phase = .bound ∧ t.up.len.toNat = slice.length ∧
      t.up.pos.toNat = 11 * k := by
  induction k with
  | zero =>
    exact ⟨_, cleanRun_cons_iff.mpr ⟨hs, _, exec_upInit_ok hs hslice, cleanRun_nil_iff.mpr ⟨hs, rfl⟩⟩, rfl,
      unpackerInit_len s.up hslice, rfl⟩
  | succ k ih =>
    obtain ⟨t, hrun, hbound, hlen, hpos⟩ := ih (by omega)
    have ht := hrun.ready_after
    have hcap : Config.upCap = 2047 := rfl
    have hnext : (BitVec.ofNat 14 (t.up.pos.toNat + 11)).toNat = 11 * (k + 1) := by
      rw [BitVec.toNat_ofNat, Nat.mod_eq_of_lt (by omega)]
      omega
    rw [unpackingJob_succ]
    exact ⟨_, cleanRun_append_singleton_iff.mpr ⟨t, hrun, exec_upRead11_ok ht hbound (by omega), ht⟩, hbound, hlen,
      hnext⟩

/-- The codec's buffers, an entropy and its hash byte, hold as many groups as the frame has words (R114). -/
theorem groupCount_eq_fvWords {l : Nat} (h : l ∈ Config.entLens) : 8 * (l + 1) / 11 = fvWords l := by
  obtain ⟨k, hlo, hhi, rfl⟩ := (mem_entLens_iff_exists_eq_four_mul l).mp h
  rw [fvWords_four_mul]
  omega

end Sys2Proof.Machine

namespace Sys2Proof
open Machine

/-- Settles O32: the next state is the whole effect of `unpackerInit` and the answer 00. -/
theorem upInitBindsTheSlice : Obligations.UpInitBindsTheSlice :=
  fun slice s hs hslice => ⟨_, exec_upInit_ok hs hslice, rfl, unpackerInit_len s.up hslice, rfl,
    fun _ hk => read_unpackerInit slice s.up hk, rfl, hs, rfl, rfl⟩

/-- Settles O33: the value read is the sum at the cursor; each failed check raises its own fault. -/
theorem upRead11AnswersTheNextGroup : Obligations.UpRead11AnswersTheNextGroup := by
  intro s hs
  refine ⟨fun hbound hfits => ?_, fun hunbound => exec_upRead11_raise hs (unpackerRead11_notBound ?_),
    fun hbound hend => exec_upRead11_raise hs (unpackerRead11_pastEnd hbound hend)⟩
  · rw [exec_upRead11_ok hs hbound hfits, respond, bytes_value_groupAt]
  · rw [hunbound]
    decide

/-- Settles O37: after `8 * length / 11` reads fewer than 11 bits are left. -/
theorem exactNumberOfReads : Obligations.ExactNumberOfReads := by
  refine ⟨fun slice s hs hslice => ?_, fun l hl => groupCount_eq_fvWords hl⟩
  obtain ⟨t, hrun, hbound, hlen, hpos⟩ := exists_cleanRun_unpackingJob_pos (k := 8 * slice.length / 11) hs hslice
    (by omega)
  have ⟨_, hall, ht⟩ := hrun
  have hlast := exec_upRead11_raise ht (unpackerRead11_pastEnd hbound (by omega))
  refine ⟨⟨t, hrun, hpos⟩, raiseFault .upReadPastEnd t, ?_, rfl, List.getLast?_concat, hpos⟩
  rw [unpackingJob_succ, execAll_append hall]
  exact execAll_cons_iff.mpr ⟨_, hlast, rfl⟩

end Sys2Proof
end

/-! PROOFS. The three checks of the frame validator (spec/43_frame_validator.md R120 to R122). A packed frame of `3 * m` values
is its entropy and one byte more, and its last value ends with the top `m` bits of that byte. -/
section
namespace Sys2Proof.Machine

/-! ### The two length checks -/

theorem fvElen_eq_fail {l : Nat} (h : l ∉ Config.entLens) : fvElen l = .error (.fail .invalidEntropyLength) :=
  if_neg fun hrange => h (fvElen_ok_iff.mp (if_pos hrange))

theorem mem_wordCounts_iff_range (n : Nat) : n ∈ Config.wordCounts ↔ 12 ≤ n ∧ n ≤ 24 ∧ n % 3 = 0 := by
  simp only [Config.wordCounts, List.mem_cons, List.not_mem_nil, or_false]
  omega

theorem mem_wordCounts_iff_exists_eq_three_mul (n : Nat) :
    n ∈ Config.wordCounts ↔ ∃ k, 4 ≤ k ∧ k ≤ 8 ∧ n = 3 * k := by
  rw [mem_wordCounts_iff_range]
  constructor
  · intro h
    exact ⟨n / 3, by omega⟩
  · rintro ⟨k, hlo, hhi, rfl⟩
    omega

theorem fvWcnt_eq_ok {n : Nat} (h : n ∈ Config.wordCounts) : fvWcnt n = .ok () :=
  if_pos ((mem_wordCounts_iff_range n).mp h)

theorem fvWcnt_eq_fail {n : Nat} (h : n ∉ Config.wordCounts) : fvWcnt n = .error (.fail .invalidWordCount) :=
  if_neg (mt (mem_wordCounts_iff_range n).mpr h)

/-! ### The checksum check -/

@[simp] theorem fvSplit_append_singleton (E : List Byte) (b : Byte) : fvSplit (E ++ [b]) = (E, b) := by simp [fvSplit]

theorem fvCsum_append_singleton_ok_iff {align : Config.FinalAlign} {h1 : List Byte → Byte} {E : List Byte} {b : Byte}
    {n : Nat} : fvCsum align h1 (E ++ [b]) n = .ok () ↔
      embeddedBits align b (fvCsbits n) = expectedBits h1 E (fvCsbits n) := by
  rw [fvCsum, fvSplit_append_singleton]
  dsimp only
  split
  · next heq => exact iff_of_true rfl heq
  · next hne => exact iff_of_false nofun hne

theorem embeddedBits_high (b : Byte) (c : Nat) : embeddedBits .high b c = b.toNat / 2 ^ (8 - c) :=
  Nat.shiftRight_eq_div_pow _ _

theorem expectedBits_eq_div (h1 : List Byte → Byte) (E : List Byte) (c : Nat) :
    expectedBits h1 E c = (h1 E).toNat / 2 ^ (8 - c) :=
  Nat.shiftRight_eq_div_pow _ _

/-! ### The bytes of a packed frame -/

theorem holdsValues_packAll {us vs : List Group} {p q : Packer} (h : HoldsValues us p) (hq : packAll vs p = .ok q) :
    HoldsValues (us ++ vs) q := by
  induction vs generalizing us p with
  | nil =>
    obtain rfl := Except.ok.inj hq
    rwa [List.append_nil]
  | cons v vs ih =>
    rw [packAll] at hq
    split at hq
    · cases hq
    · rw [List.append_cons]
      exact ih (holdsValues_packerWrite11 h ‹_›) hq

/-- What packing indices answers is the result of a packer that holds the values. -/
theorem exists_holdsResult_of_packIndices {vs : List Group} {A : List Byte} (h : packIndices .high vs = .ok A) :
    ∃ p, HoldsResult vs p ∧ A = p.result := by
  unfold packIndices at h
  split at h
  · cases h
  · have h0 := holdsValues_packerInit ‹_›
    split at h
    · cases h
    · have h1 := holdsValues_packAll h0 ‹_›
      split at h
      · cases h
      · obtain ⟨-, -, hA⟩ := packerTake_ok_iff.mp h
        exact ⟨_, holdsResult_packerFinish h1 ‹_›, hA⟩

theorem length_of_packIndices {vs : List Group} {A : List Byte} (h : packIndices .high vs = .ok A) :
    A.length = (11 * vs.length + 7) / 8 := by
  obtain ⟨p, hr, rfl⟩ := exists_holdsResult_of_packIndices h
  rw [result_length, hr.len]

/-- The groups of the packed bytes are the values packed. -/
theorem groupsOf_of_packIndices {vs : List Group} {A : List Byte} (h : packIndices .high vs = .ok A) :
    groupsOf A vs.length = vs := by
  have hlen := length_of_packIndices h
  obtain ⟨p, hr, rfl⟩ := exists_holdsResult_of_packIndices h
  exact groupsOf_eq_of_bits fun i hi => hr.bitOf_result (by omega)

theorem groupsOf_succ (bs : List Byte) (k : Nat) :
    groupsOf bs (k + 1) = groupsOf bs k ++ [groupAt (byteOf bs) (11 * k)] := by
  simp [groupsOf, List.range_succ]

theorem last_eq_groupAt_of_packIndices {vs : List Group} {v : Group} {A : List Byte}
    (h : packIndices .high (vs ++ [v]) = .ok A) : v = groupAt (byteOf A) (11 * vs.length) := by
  have hgroups := groupsOf_of_packIndices h
  rw [List.length_append, List.length_singleton, groupsOf_succ] at hgroups
  have hlast := List.append_inj_right' hgroups rfl
  exact (List.singleton_inj.mp hlast).symm

/-- The group that ends `m` bits into the last byte has that byte's top `m` bits as its low ones. -/
theorem groupAt_append_mod (E : List Byte) (b : Byte) {m : Nat} (hm : m ≤ 8) (hE : 11 ≤ 8 * E.length + m) :
    (groupAt (byteOf (E ++ [b])) (8 * E.length - (11 - m))).toNat % 2 ^ m = b.toNat / 2 ^ (8 - m) := by
  have hlt : b.toNat / 2 ^ (8 - m) < 2 ^ m := by
    rw [Nat.div_lt_iff_lt_mul (Nat.two_pow_pos _), ← Nat.pow_add, Nat.add_sub_cancel' hm]
    exact b.isLt
  rw [toNat_groupAt_append E b hm hE, Nat.add_comm, Nat.add_mul_mod_self_right, Nat.mod_eq_of_lt hlt]

/-- A packed frame of `3 * m` values is `4 * m` bytes of entropy and one byte, whose top `m` bits end the last value. -/
theorem exists_entropy_append_checksum_of_packIndices {vs : List Group} {v : Group} {A : List Byte} {m : Nat}
    (hlo : 4 ≤ m) (hhi : m ≤ 8) (hcount : vs.length + 1 = 3 * m) (h : packIndices .high (vs ++ [v]) = .ok A) :
    ∃ E b, A = E ++ [b] ∧ E.length = 4 * m ∧ v.toNat % 2 ^ m = b.toNat / 2 ^ (8 - m) := by
  have hlen := length_of_packIndices h
  rw [List.length_append, List.length_singleton, hcount] at hlen
  have hv := last_eq_groupAt_of_packIndices h
  obtain rfl | ⟨E, b, rfl⟩ := List.eq_nil_or_concat' A
  · rw [List.length_nil] at hlen
    omega
  · rw [List.length_append, List.length_singleton] at hlen
    have hE : E.length = 4 * m := by omega
    have hpos : 11 * vs.length = 8 * E.length - (11 - m) := by omega
    refine ⟨E, b, rfl, hE, ?_⟩
    rw [hv, hpos]
    exact groupAt_append_mod E b hhi (by omega)

end Sys2Proof.Machine

namespace Sys2Proof
open Machine

/-- Settles O38: the range and the divisibility that the check tests single out ENT_LENS. -/
theorem entropyLengthCheckPassesExactlyEntLens : Obligations.EntropyLengthCheckPassesExactlyEntLens :=
  fun _ => ⟨fvElen_ok_iff.mpr, fvElen_eq_fail⟩

/-- Settles O39: the range and the divisibility that the check tests single out WORD_COUNTS. -/
theorem wordCountCheckPassesExactlyWordCounts : Obligations.WordCountCheckPassesExactlyWordCounts :=
  fun _ => ⟨fvWcnt_eq_ok, fvWcnt_eq_fail⟩

/-- Settles O41: the embedded bits, the top ones of the last byte, are the low ones of the last index. -/
theorem checksumPassesIffLastIndexAgrees : Obligations.ChecksumPassesIffLastIndexAgrees := by
  intro h1 vs v A hlegal h
  obtain ⟨m, hlo, hhi, hcount⟩ := (mem_wordCounts_iff_exists_eq_three_mul _).mp hlegal
  obtain ⟨E, b, rfl, hE, hv⟩ := exists_entropy_append_checksum_of_packIndices hlo hhi hcount h
  have hentropy : (E ++ [b]).take (4 * (3 * m) / 3) = E := List.take_left' (by omega)
  have hthird : 3 * m / 3 = m := by omega
  rw [fvCsum_append_singleton_ok_iff, hcount, fvCsbits_three_mul, embeddedBits_high, expectedBits_eq_div, hentropy,
    hthird, hv]

end Sys2Proof
end

/-! PROOFS. MN.ENCODE (spec/44_codec.md R130, R132): its answer, and that the indices hold the entropy. `3 * m` indices are
the groups of `4 * m` bytes of entropy and one byte more, of which they hold the top `m` bits. -/
section
namespace Sys2Proof.Machine

/-! ### How the command ends on a block without a fault -/

section
variable {s : State} (hs : s.fault = none)
include hs

theorem command_fail {x : Except Stop (State × Response)} {e : MnError} (hx : x = .error (.fail e)) :
    command s x = .next (respond (.error e) s) := by
  rw [command, unlessFaulted_ready hs, hx, conclude]

theorem exec_mnEncode_ok {E : List Byte} {g : List Group} (h : codecEncode Sha256.h1 E = .ok g) :
    exec (.mnEncode E) s = .next (respond (.indices g) s) :=
  command_ok hs (by rw [h])

theorem exec_mnEncode_fail {E : List Byte} {e : MnError} (h : codecEncode Sha256.h1 E = .error (.fail e)) :
    exec (.mnEncode E) s = .next (respond (.error e) s) :=
  command_fail hs (by rw [h])

end

/-! ### The answer of an encoding -/

theorem codecEncode_eq_fail {h1 : List Byte → Byte} {E : List Byte} (h : E.length ∉ Config.entLens) :
    codecEncode h1 E = .error (.fail .invalidEntropyLength) := by
  rw [codecEncode, fvElen_eq_fail h]

theorem encodedGroups_eq_groupsOf (h1 : List Byte → Byte) (E : List Byte) :
    encodedGroups h1 E = groupsOf (E ++ [h1 E]) (fvWords E.length) := rfl

theorem encodedGroups_length (h1 : List Byte → Byte) (E : List Byte) :
    (encodedGroups h1 E).length = fvWords E.length := by
  rw [encodedGroups_eq_groupsOf, groupsOf_length]

theorem indicesBytes_eq_flatMap (g : List Group) : indicesBytes g = g.flatMap indexBytes := by
  induction g with
  | nil => rfl
  | cons v vs ih => rw [indicesBytes, ih, List.flatMap_cons]

theorem indexBytes_groupAt (bytes : Nat → Byte) (p : Nat) :
    indexBytes (groupAt bytes p) = be16Bytes (BitVec.ofNat 16 (groupSum bytes p)) := by
  rw [indexBytes, ← toNat_groupAt_eq_groupSum, BitVec.ofNat_toNat]

/-- The response of an encoding: OK, the count, and each group's sum as a 16-bit field. -/
theorem bytes_indices_groupsOf (bs : List Byte) (k : Nat) :
    Response.bytes (.indices (groupsOf bs k)) = 0x00 :: BitVec.ofNat 8 k ::
      (List.range k).flatMap fun j => be16Bytes (BitVec.ofNat 16 (groupSum (byteOf bs) (11 * j))) := by
  rw [Response.bytes, Response.payload, groupsOf_length, indicesBytes_eq_flatMap, groupsOf, List.flatMap_map]
  simp only [indexBytes_groupAt]
  rfl

/-- Encoding completes or fails (R131). -/
theorem codecEncode_ok_or_fail (h1 : List Byte → Byte) (E : List Byte) :
    (∃ g, codecEncode h1 E = .ok g) ∨ ∃ e, codecEncode h1 E = .error (.fail e) := by
  by_cases h : E.length ∈ Config.entLens
  · exact .inl ⟨_, codecEncode_ok_iff.mpr ⟨h, rfl⟩⟩
  · exact .inr ⟨_, codecEncode_eq_fail h⟩

/-! ### A byte sequence is its bits -/

theorem eq_of_bitOf {A B : List Byte} (hlen : A.length = B.length)
    (hbits : ∀ i, i < 8 * A.length → bitOf A i = bitOf B i) : A = B := by
  refine List.ext_getElem hlen fun k hA hB => BitVec.eq_of_getLsbD_eq fun j hj => ?_
  have hbyte : (8 * k + (7 - j)) / 8 = k := by omega
  have hbit : 7 - (8 * k + (7 - j)) % 8 = j := by omega
  have h := hbits (8 * k + (7 - j)) (by omega)
  rwa [bitOf, bitOf, streamBit, streamBit, hbyte, hbit, byteOf, byteOf, List.getD_eq_getElem _ _ hA,
    List.getD_eq_getElem _ _ hB] at h

theorem getLsbD_byteOfStream {bits : List Bool} {k j : Nat} (hk : 8 * (k + 1) ≤ bits.length) (hj : j < 8) :
    (byteOfStream bits k).getLsbD (7 - j) = bits.getD (8 * k + j) false := by
  have hlen : ((bits.drop (8 * k)).take 8).length = 8 := by
    rw [List.length_take, List.length_drop]
    omega
  have hpos : 8 - 1 - j = 7 - j := by omega
  have hbit := testBit_numberOf ((bits.drop (8 * k)).take 8) (i := j) (by omega)
  rw [hlen, hpos] at hbit
  rw [byteOfStream, BitVec.getLsbD_ofNat, hbit, decide_eq_true (by omega), Bool.true_and, List.getD_eq_getElem?_getD,
    List.getElem?_take_of_lt hj, List.getElem?_drop, List.getD_eq_getElem?_getD]

/-! ### The entropy and the checksum bits that indices hold -/

/-- The first `4n/3` bytes of the stream of `n` indices (R133). -/
def entropyOf (vs : List Group) : List Byte :=
  (List.range (4 * vs.length / 3)).map (byteOfStream (streamOf vs))

/-- The bits of the stream after the entropy, as a number (R122). -/
def checksumOf (vs : List Group) : Nat := numberOf ((streamOf vs).drop (8 * (4 * vs.length / 3)))

theorem entropyOf_length (vs : List Group) : (entropyOf vs).length = 4 * vs.length / 3 := by simp [entropyOf]

theorem bitOf_entropyOf {vs : List Group} {i : Nat} (h : i < 8 * (4 * vs.length / 3)) :
    bitOf (entropyOf vs) i = (streamOf vs).getD i false := by
  have hk : i / 8 < (entropyOf vs).length := by rw [entropyOf_length]; omega
  have hback : 8 * (i / 8) + i % 8 = i := by omega
  rw [bitOf, streamBit, byteOf, List.getD_eq_getElem _ _ hk]
  simp only [entropyOf, List.getElem_map, List.getElem_range]
  rw [getLsbD_byteOfStream (by rw [streamOf_length]; omega) (by omega), hback]

theorem entropyLength_groupsOf (bs : List Byte) (m : Nat) : 4 * (groupsOf bs (3 * m)).length / 3 = 4 * m := by
  rw [groupsOf_length]
  omega

section
variable {E : List Byte} {m : Nat} (hE : E.length = 4 * m)
include hE

/-- The entropy that the groups of `E ‖ b` hold is `E`. -/
theorem entropyOf_groupsOf (b : Byte) : entropyOf (groupsOf (E ++ [b]) (3 * m)) = E := by
  have hcount := entropyLength_groupsOf (E ++ [b]) m
  have hlen : (entropyOf (groupsOf (E ++ [b]) (3 * m))).length = 4 * m := by rw [entropyOf_length, hcount]
  refine eq_of_bitOf (hlen.trans hE.symm) fun i hi => ?_
  rw [hlen] at hi
  rw [bitOf_entropyOf (by rw [hcount]; exact hi), streamOf_groupsOf_getD _ (by omega), bitOf_append_of_lt b (by omega)]

/-- The checksum bits that the groups of `E ‖ b` hold are the top `m` bits of `b`. -/
theorem checksumOf_groupsOf (b : Byte) (hm : m ≤ 8) :
    checksumOf (groupsOf (E ++ [b]) (3 * m)) = b.toNat / 2 ^ (8 - m) := by
  have hcount := entropyLength_groupsOf (E ++ [b]) m
  have hlast : (streamOf (groupsOf (E ++ [b]) (3 * m))).drop (8 * (4 * m)) =
      (List.range m).map fun q => b.getLsbD (7 - q) := by
    refine List.ext_getElem (by simp; omega) fun q hq hq' => ?_
    rw [List.length_map, List.length_range] at hq'
    rw [List.getElem_drop, ← List.getD_eq_getElem _ false, streamOf_groupsOf_getD _ (by omega), ← hE,
      bitOf_append_last E b (by omega), List.getElem_map, List.getElem_range]
  rw [checksumOf, hcount, hlast, numberOf_topBits b hm]

end

/-- Encoding loses nothing of the entropy, whatever the hash is. -/
theorem entropyOf_of_codecEncode {h1 : List Byte → Byte} {E : List Byte} {g : List Group}
    (h : codecEncode h1 E = .ok g) : entropyOf g = E := by
  obtain ⟨hlegal, rfl⟩ := codecEncode_ok_iff.mp h
  obtain ⟨m, -, -, hm⟩ := (mem_entLens_iff_exists_eq_four_mul _).mp hlegal
  rw [encodedGroups_eq_groupsOf, hm, fvWords_four_mul, entropyOf_groupsOf hm]

end Sys2Proof.Machine

namespace Sys2Proof
open Machine

/-- Settles O43: the groups are those of the entropy and the hash byte, and the response weighs their bits. -/
theorem mnEncodeAnswersTheGroups : Obligations.MnEncodeAnswersTheGroups := by
  refine fun E s hs => ⟨fun hlegal => ?_, fun hillegal => exec_mnEncode_fail hs (codecEncode_eq_fail hillegal)⟩
  rw [exec_mnEncode_ok hs (codecEncode_ok_iff.mpr ⟨hlegal, rfl⟩), respond, encodedGroups_eq_groupsOf,
    bytes_indices_groupsOf, fvWords]

/-- Settles O45: the first bytes of the groups' bits are the entropy. -/
theorem encodingIsInjectiveForEveryHash : Obligations.EncodingIsInjectiveForEveryHash :=
  fun _ _ _ _ h1 h2 => (entropyOf_of_codecEncode h1).symm.trans (entropyOf_of_codecEncode h2)

end Sys2Proof
end

/-! PROOFS. MN.DECODE (spec/44_codec.md R133, R134): its three checks in their order, and what a frame that passes holds.
Neither command of the codec faults or reads the state (R131, R135, R138). -/
section
namespace Sys2Proof.Machine

/-! ### How the command ends on a block without a fault -/

section
variable {s : State} (hs : s.fault = none)
include hs

theorem exec_mnDecode_ok {ts : List Token} {g : List Group} {E : List Byte}
    (h : codecDecode Config.pkFinalAlign Sha256.h1 ts = .ok (g, E)) :
    exec (.mnDecode ts) s = .next (respond (.recovered g E) s) :=
  command_ok hs (by rw [h])

theorem exec_mnDecode_fail {ts : List Token} {e : MnError}
    (h : codecDecode Config.pkFinalAlign Sha256.h1 ts = .error (.fail e)) :
    exec (.mnDecode ts) s = .next (respond (.error e) s) :=
  command_fail hs (by rw [h])

end

/-- The response of a decoding: OK, the count, the indices as given, the length and the entropy. -/
theorem bytes_recovered (ts : List Token) (E : List Byte) :
    Response.bytes (.recovered (ts.map Token.idx) E) = 0x00 :: BitVec.ofNat 8 ts.length ::
      (ts.flatMap fun t => be16Bytes (t.idx.setWidth 16)) ++ BitVec.ofNat 8 E.length :: E := by
  rw [Response.bytes, Response.payload, List.length_map, indicesBytes_eq_flatMap, List.flatMap_map]
  rfl

theorem mnError_status_lt (e : MnError) : e.status.toNat < 0x80 := by
  cases e <;> decide

/-! ### Packing the indices -/

theorem exists_packAll_ok {us vs : List Group} {p : Packer} (h : HoldsValues us p)
    (hroom : us.length + vs.length ≤ p.wc.toNat) : ∃ q, packAll vs p = .ok q := by
  induction vs generalizing us p with
  | nil => exact ⟨p, rfl⟩
  | cons v vs ih =>
    rw [List.length_cons] at hroom
    have hwrite := h.packerWrite11_ok v (by omega)
    rw [packAll, hwrite]
    refine ih (holdsValues_packerWrite11 h hwrite) ?_
    rw [appended_wc, List.length_append, List.length_singleton]
    omega

/-- As many indices as a packer may be constructed for are packed without a fault (R135). -/
theorem exists_packIndices_ok {vs : List Group} (h : vs.length ≤ Config.pkMaxWc) :
    ∃ A, packIndices .high vs = .ok A := by
  have hcap : Config.pkMaxWc = 24 := rfl
  have hwc : (BitVec.ofNat 11 vs.length).toNat = vs.length := by
    rw [BitVec.toNat_ofNat, Nat.mod_eq_of_lt (by omega)]
  have hinit := packerInit_ok_iff (wc := BitVec.ofNat 11 vs.length) (p := Packer.reset).mpr ⟨by rw [hwc]; exact h, rfl⟩
  have h0 := holdsValues_packerInit hinit
  have hroom : ([] : List Group).length + vs.length ≤
      (BitVec.ofNat 5 (BitVec.ofNat 11 vs.length).toNat).toNat := by
    rw [hwc, BitVec.toNat_ofNat, Nat.mod_eq_of_lt (by omega), List.length_nil, Nat.zero_add]
  obtain ⟨p, hp⟩ := exists_packAll_ok h0 hroom
  obtain ⟨q, hq⟩ := (holdsValues_packAll h0 hp).exists_packerFinish_ok
  have hr := holdsResult_packerFinish (holdsValues_packAll h0 hp) hq
  refine ⟨q.result, ?_⟩
  simp only [packIndices, hinit, hp, hq]
  exact packerTake_ok_iff.mpr ⟨hr.phase, hr.room, rfl⟩

/-- `3 * m` indices are packed to `4 * m` bytes and one byte, of which they are the groups. -/
theorem exists_frame_of_indices {vs : List Group} {m : Nat} (hlo : 4 ≤ m) (hhi : m ≤ 8) (hcount : vs.length = 3 * m) :
    ∃ E b, packIndices .high vs = .ok (E ++ [b]) ∧ E.length = 4 * m ∧ vs = groupsOf (E ++ [b]) (3 * m) := by
  have hcap : Config.pkMaxWc = 24 := rfl
  obtain ⟨A, hA⟩ := exists_packIndices_ok (vs := vs) (by omega)
  have hlen := length_of_packIndices hA
  have hgroups := groupsOf_of_packIndices hA
  rw [hcount] at hlen hgroups
  obtain rfl | ⟨E, b, rfl⟩ := List.eq_nil_or_concat' A
  · rw [List.length_nil] at hlen
    omega
  · rw [List.length_append, List.length_singleton] at hlen
    exact ⟨E, b, hA, by omega, hgroups.symm⟩

/-! ### The three checks of a decoding -/

theorem lookupCheck_eq_ok {ts : List Token} (h : ∀ t, t ∈ ts → t.miss = false) : lookupCheck ts = .ok () := by
  induction ts with
  | nil => rfl
  | cons t ts ih =>
    rw [lookupCheck, h t List.mem_cons_self]
    exact ih fun u hu => h u (List.mem_cons_of_mem t hu)

theorem lookupCheck_eq_fail {ts : List Token} (h : ∃ t, t ∈ ts ∧ t.miss = true) :
    lookupCheck ts = .error (.fail .unknownWord) := by
  induction ts with
  | nil =>
    obtain ⟨t, ht, -⟩ := h
    cases ht
  | cons t ts ih =>
    rw [lookupCheck]
    split
    · rfl
    · next hhit =>
      obtain ⟨u, hu, hmiss⟩ := h
      obtain rfl | hu := List.mem_cons.mp hu
      · exact absurd hmiss hhit
      · exact ih ⟨u, hu, hmiss⟩

/-- The checksum check of a frame of `3 * m` indices compares the top `m` bits of two bytes. -/
theorem fvCsum_append_singleton (h1 : List Byte → Byte) (E : List Byte) (b : Byte) (m : Nat) :
    fvCsum .high h1 (E ++ [b]) (3 * m) =
      if b.toNat / 2 ^ (8 - m) = (h1 E).toNat / 2 ^ (8 - m) then .ok () else .error (.fail .checksumMismatch) := by
  rw [fvCsum, fvSplit_append_singleton, fvCsbits_three_mul]
  dsimp only
  rw [embeddedBits_high, expectedBits_eq_div]

section
variable {h1 : List Byte → Byte} {ts : List Token}

theorem codecDecode_wrongCount (h : ts.length ∉ Config.wordCounts) :
    codecDecode .high h1 ts = .error (.fail .invalidWordCount) := by
  rw [codecDecode, fvWcnt_eq_fail h]

theorem codecDecode_unknownWord (hcount : ts.length ∈ Config.wordCounts) (h : ∃ t, t ∈ ts ∧ t.miss = true) :
    codecDecode .high h1 ts = .error (.fail .unknownWord) := by
  simp only [codecDecode, fvWcnt_eq_ok hcount, lookupCheck_eq_fail h]

/-- A frame of hits of a legal count is decided by its checksum bits. -/
theorem codecDecode_hits (hcount : ts.length ∈ Config.wordCounts) (h : ∀ t, t ∈ ts → t.miss = false) :
    codecDecode .high h1 ts =
      if checksumOf (ts.map Token.idx) = (h1 (entropyOf (ts.map Token.idx))).toNat / 2 ^ (8 - ts.length / 3) then
        .ok (ts.map Token.idx, entropyOf (ts.map Token.idx))
      else .error (.fail .checksumMismatch) := by
  obtain ⟨m, hlo, hhi, hm⟩ := (mem_wordCounts_iff_exists_eq_three_mul _).mp hcount
  obtain ⟨E, b, hpack, hE, hgroups⟩ := exists_frame_of_indices (vs := ts.map Token.idx) hlo hhi (by simpa using hm)
  have hentropy : entropyOf (ts.map Token.idx) = E := by rw [hgroups, entropyOf_groupsOf hE]
  have hchecksum : checksumOf (ts.map Token.idx) = b.toNat / 2 ^ (8 - m) := by
    rw [hgroups, checksumOf_groupsOf hE b hhi]
  have hthird : 3 * m / 3 = m := by omega
  simp only [codecDecode, fvWcnt_eq_ok hcount, lookupCheck_eq_ok h, hpack]
  rw [hentropy, hchecksum, fvSplit_append_singleton, hm, fvCsum_append_singleton, hthird]
  by_cases heq : b.toNat / 2 ^ (8 - m) = (h1 E).toNat / 2 ^ (8 - m)
  · rw [if_pos heq, if_pos heq]
  · rw [if_neg heq, if_neg heq]

/-- Decoding completes or fails (R135). -/
theorem codecDecode_ok_or_fail (h1 : List Byte → Byte) (ts : List Token) :
    (∃ g E, codecDecode .high h1 ts = .ok (g, E)) ∨ ∃ e, codecDecode .high h1 ts = .error (.fail e) := by
  by_cases hcount : ts.length ∈ Config.wordCounts
  · by_cases hmiss : ∃ t, t ∈ ts ∧ t.miss = true
    · exact .inr ⟨_, codecDecode_unknownWord hcount hmiss⟩
    · rw [codecDecode_hits hcount fun t ht => eq_false_of_ne_true fun h => hmiss ⟨t, ht, h⟩]
      split
      · exact .inl ⟨_, _, rfl⟩
      · exact .inr ⟨_, rfl⟩
  · exact .inr ⟨_, codecDecode_wrongCount hcount⟩

end

end Sys2Proof.Machine

namespace Sys2Proof
open Machine

/-- Settles O44: the codec's answer, groups or an error, is computed from the payload alone. -/
theorem codecCommandsArePureAndNeverFault : Obligations.CodecCommandsArePureAndNeverFault := by
  constructor
  · intro E
    obtain ⟨g, h⟩ | ⟨e, h⟩ := codecEncode_ok_or_fail Sha256.h1 E
    · exact ⟨0x00, _, by decide, fun s hs => exec_mnEncode_ok hs h⟩
    · exact ⟨_, _, mnError_status_lt e, fun s hs => exec_mnEncode_fail hs h⟩
  · intro ts
    obtain ⟨g, E, h⟩ | ⟨e, h⟩ := codecDecode_ok_or_fail Sha256.h1 ts
    · exact ⟨0x00, _, by decide, fun s hs => exec_mnDecode_ok hs h⟩
    · exact ⟨_, _, mnError_status_lt e, fun s hs => exec_mnDecode_fail hs h⟩

/-- Settles O48: each check that fails gives its error, and the last one compares the bits after the entropy. -/
theorem mnDecodeValidatesAndRecovers : Obligations.MnDecodeValidatesAndRecovers := by
  refine fun ts s hs => ⟨fun hcount => exec_mnDecode_fail hs (codecDecode_wrongCount hcount),
    fun hcount hmiss => exec_mnDecode_fail hs (codecDecode_unknownWord hcount hmiss), fun hcount hhit => ?_⟩
  have hdecode := codecDecode_hits (h1 := Sha256.h1) hcount hhit
  have hentropy : entropyOf (ts.map Token.idx) =
      (List.range (4 * ts.length / 3)).map (byteOfStream (streamOf (ts.map Token.idx))) := by
    rw [entropyOf, List.length_map]
  rw [hentropy, checksumOf, List.length_map] at hdecode
  rintro E rfl
  refine ⟨fun heq => ?_, fun hne => ?_⟩
  · rw [if_pos heq] at hdecode
    rw [exec_mnDecode_ok hs hdecode, respond, bytes_recovered, List.length_map, List.length_range]
  · rw [if_neg hne] at hdecode
    exact exec_mnDecode_fail hs hdecode

end Sys2Proof
end

/-! PROOFS. Encoding and decoding accept the same pairs of an entropy and its indices (spec/44_codec.md R136), and
two such pairs differ in one word (R137). -/
section
namespace Sys2Proof.Machine

@[simp] theorem hits_length (g : List Group) : (hits g).length = g.length := by simp [hits]

@[simp] theorem hits_map_idx (g : List Group) : (hits g).map Token.idx = g := by simp [hits, Function.comp_def]

theorem miss_eq_false_of_mem_hits {g : List Group} {t : Token} (h : t ∈ hits g) : t.miss = false := by
  obtain ⟨i, -, rfl⟩ := List.mem_map.mp h
  rfl

theorem codecDecode_hits_ok_iff {h1 : List Byte → Byte} {g g' : List Group} {E : List Byte} :
    codecDecode .high h1 (hits g) = .ok (g', E) ↔ g.length ∈ Config.wordCounts ∧ g' = g ∧ E = entropyOf g ∧
      checksumOf g = (h1 E).toNat / 2 ^ (8 - g.length / 3) := by
  by_cases hcount : g.length ∈ Config.wordCounts
  · rw [codecDecode_hits (by rwa [hits_length]) fun t => miss_eq_false_of_mem_hits, hits_map_idx, hits_length]
    split
    · next heq =>
      simp only [Except.ok.injEq, Prod.mk.injEq, hcount, true_and]
      constructor
      · rintro ⟨rfl, rfl⟩
        exact ⟨rfl, rfl, heq⟩
      · rintro ⟨rfl, rfl, -⟩
        exact ⟨rfl, rfl⟩
    · next hne =>
      refine iff_of_false nofun ?_
      rintro ⟨-, -, rfl, heq⟩
      exact hne heq
  · rw [codecDecode_wrongCount (by rwa [hits_length])]
    exact iff_of_false nofun fun h => hcount h.1

/-- R136: an encoding of an entropy is a frame that decodes to it, and there is no other. -/
theorem codecEncode_ok_iff_codecDecode_hits {h1 : List Byte → Byte} {E : List Byte} {g : List Group} :
    codecEncode h1 E = .ok g ↔ codecDecode .high h1 (hits g) = .ok (g, E) := by
  rw [codecDecode_hits_ok_iff]
  constructor
  · intro h
    have hentropy := entropyOf_of_codecEncode h
    obtain ⟨hlegal, rfl⟩ := codecEncode_ok_iff.mp h
    obtain ⟨m, hlo, hhi, hm⟩ := (mem_entLens_iff_exists_eq_four_mul _).mp hlegal
    refine ⟨?_, rfl, hentropy.symm, ?_⟩
    · rw [encodedGroups_length, hm, fvWords_four_mul]
      exact (three_mul_mem_wordCounts_iff m).mpr ⟨hlo, hhi⟩
    · have hthird : 3 * m / 3 = m := by omega
      rw [encodedGroups_eq_groupsOf, groupsOf_length, hm, fvWords_four_mul, checksumOf_groupsOf hm _ hhi, hthird]
  · rintro ⟨hcount, -, rfl, hchecksum⟩
    obtain ⟨m, hlo, hhi, hm⟩ := (mem_wordCounts_iff_exists_eq_three_mul _).mp hcount
    obtain ⟨E, b, -, hE, hgroups⟩ := exists_frame_of_indices hlo hhi hm
    have hentropy : entropyOf g = E := by rw [hgroups, entropyOf_groupsOf hE]
    have hthird : 3 * m / 3 = m := by omega
    have hb : b.toNat / 2 ^ (8 - m) = (h1 E).toNat / 2 ^ (8 - m) := by
      rw [← checksumOf_groupsOf hE b hhi, ← hgroups, hchecksum, hentropy, hm, hthird]
    have hsame : encodedGroups (fun _ => b) E = encodedGroups h1 E := encodedGroups_congr hE hhi hb
    rw [encodedGroups_eq_groupsOf (fun _ => b), hE, fvWords_four_mul, ← hgroups] at hsame
    rw [hentropy]
    exact codecEncode_ok_iff.mpr ⟨(mem_entLens_iff_exists_eq_four_mul _).mpr ⟨m, hlo, hhi, hE⟩, hsame⟩

theorem bytes_recovered_inj {g : List Group} {E E' : List Byte}
    (h : Response.bytes (.recovered g E) = Response.bytes (.recovered g E')) : E = E' :=
  (List.cons.inj (List.append_cancel_left (List.cons.inj h).2)).2

theorem bytes_recovered_ne_error (g : List Group) (E : List Byte) (e : MnError) :
    Response.bytes (.recovered g E) ≠ Response.bytes (.error e) := by
  intro h
  cases (List.cons.inj h).2

/-- The bytes of an OK response show what the decoding answered. -/
theorem codecDecode_of_exec_mnDecode {g : List Group} {E : List Byte} {s : State} (hs : s.fault = none)
    (h : exec (.mnDecode (hits g)) s = .next { s with outbox := s.outbox ++ [(Response.recovered g E).bytes] }) :
    codecDecode .high Sha256.h1 (hits g) = .ok (g, E) := by
  obtain ⟨g', E', hd⟩ | ⟨e, hd⟩ := codecDecode_ok_or_fail Sha256.h1 (hits g)
  · obtain ⟨-, rfl, -⟩ := codecDecode_hits_ok_iff.mp hd
    rw [exec_mnDecode_ok hs hd] at h
    have hout := congrArg State.outbox (Host.Outcome.next.inj h)
    rw [hd, bytes_recovered_inj (List.singleton_inj.mp (List.append_cancel_left hout))]
  · rw [exec_mnDecode_fail hs hd] at h
    have hout := congrArg State.outbox (Host.Outcome.next.inj h)
    exact absurd (List.singleton_inj.mp (List.append_cancel_left hout)).symm (bytes_recovered_ne_error g E e)

end Sys2Proof.Machine

namespace Sys2Proof
open Machine

/-- Settles O49: the codec's two conversions accept the same pairs of an entropy and its indices. -/
theorem encodeAndDecodeRoundTrip : Obligations.EncodeAndDecodeRoundTrip := by
  constructor
  · intro E s hs hlegal
    have h := codecEncode_ok_iff (h1 := Sha256.h1).mpr ⟨hlegal, rfl⟩
    exact ⟨_, exec_mnEncode_ok hs h, exec_mnDecode_ok hs (codecEncode_ok_iff_codecDecode_hits.mp h)⟩
  · intro g E s hs h
    exact exec_mnEncode_ok hs (codecEncode_ok_iff_codecDecode_hits.mpr (codecDecode_of_exec_mnDecode hs h))

/-- Settles O50: the hash bytes of the two entropies begin with the digits 3 and 7, the low four bits of the indices 3
and 23. -/
theorem singleWordChangeMayStillPass : Obligations.SingleWordChangeMayStillPass := by
  have ha : codecDecode .high Sha256.h1 (hits (List.replicate 11 0 ++ [3])) =
      .ok (List.replicate 11 0 ++ [3], List.replicate 16 0x00) := by decide +kernel
  have hb : codecDecode .high Sha256.h1 (hits (List.replicate 11 0 ++ [23])) =
      .ok (List.replicate 11 0 ++ [23], List.replicate 15 0x00 ++ [0x01]) := by decide +kernel
  exact ⟨_, _, exec_mnDecode_ok rfl ha, exec_mnDecode_ok rfl hb, rfl, rfl⟩

end Sys2Proof
end

/-! PROOFS. The host's text (spec/44_codec.md R140 to R142): FORMAT and PARSE, and the search of the dictionary. -/
section
namespace Sys2Proof.Machine

/-! ### Joining and parsing -/

theorem joinWords_cons {w : Text} {ws : List Text} (h : ws ≠ []) :
    joinWords (w :: ws) = w ++ space :: joinWords ws := by
  cases ws with
  | nil => exact absurd rfl h
  | cons v ws => rfl

theorem parseWords_space_cons (str : Text) : parseWords (space :: str) = [] :: parseWords str := rfl

theorem parseWords_ne_nil (str : Text) : parseWords str ≠ [] := by
  fun_cases parseWords str <;> simp

/-- A byte that is no space goes to the front of the first word. -/
theorem parseWords_cons_of_ne {b : Byte} {str w : Text} {ws : List Text} (hb : b ≠ space)
    (h : parseWords str = w :: ws) : parseWords (b :: str) = (b :: w) :: ws := by
  rw [parseWords, if_neg hb, h]

/-- Bytes that are no spaces go to the front of the first word. -/
theorem parseWords_append {w str v : Text} {vs : List Text} (hw : space ∉ w) (h : parseWords str = v :: vs) :
    parseWords (w ++ str) = (w ++ v) :: vs := by
  induction w with
  | nil => exact h
  | cons b w ih =>
    obtain ⟨hb, hw⟩ := List.ne_and_not_mem_of_not_mem_cons hw
    exact parseWords_cons_of_ne (Ne.symm hb) (ih hw)

theorem parseWords_word {w : Text} (h : space ∉ w) : parseWords w = [w] := by
  have hparse := parseWords_append (str := []) h rfl
  rwa [List.append_nil] at hparse

theorem parseWords_word_append {w : Text} (h : space ∉ w) (str : Text) :
    parseWords (w ++ space :: str) = w :: parseWords str := by
  rw [parseWords_append h (parseWords_space_cons str), List.append_nil]

/-- Words without spaces come back from their join. -/
theorem parseWords_joinWords {ws : List Text} (hne : ws ≠ []) (h : ∀ w, w ∈ ws → space ∉ w) :
    parseWords (joinWords ws) = ws := by
  induction ws with
  | nil => exact absurd rfl hne
  | cons w ws ih =>
    have hw := h w List.mem_cons_self
    by_cases hws : ws = []
    · rw [hws]
      exact parseWords_word hw
    · rw [joinWords_cons hws, parseWords_word_append hw, ih hws fun v hv => h v (List.mem_cons_of_mem w hv)]

theorem parseWords_length (str : Text) : (parseWords str).length = str.count space + 1 := by
  induction str with
  | nil => rfl
  | cons b str ih =>
    by_cases hb : b = space
    · rw [hb, parseWords_space_cons, List.length_cons, ih, List.count_cons_self]
    · obtain ⟨w, ws, h⟩ := List.exists_cons_of_ne_nil (parseWords_ne_nil str)
      rw [parseWords_cons_of_ne hb h, List.count_cons_of_ne hb, ← ih, h, List.length_cons, List.length_cons]

theorem joinWords_parseWords (str : Text) : joinWords (parseWords str) = str := by
  induction str with
  | nil => rfl
  | cons b str ih =>
    by_cases hb : b = space
    · rw [hb, parseWords_space_cons, joinWords_cons (parseWords_ne_nil str), ih, List.nil_append]
    · obtain ⟨w, ws, h⟩ := List.exists_cons_of_ne_nil (parseWords_ne_nil str)
      rw [parseWords_cons_of_ne hb h]
      rw [h] at ih
      cases ws with
      | nil => exact congrArg (b :: ·) ih
      | cons v ws => exact congrArg (b :: ·) ih

theorem space_not_mem_of_mem_parseWords {str w : Text} (h : w ∈ parseWords str) : space ∉ w := by
  induction str generalizing w with
  | nil =>
    rw [List.mem_singleton.mp h]
    exact List.not_mem_nil
  | cons b str ih =>
    by_cases hb : b = space
    · rw [hb, parseWords_space_cons] at h
      obtain rfl | h := List.mem_cons.mp h
      · exact List.not_mem_nil
      · exact ih h
    · obtain ⟨v, vs, hv⟩ := List.exists_cons_of_ne_nil (parseWords_ne_nil str)
      rw [parseWords_cons_of_ne hb hv] at h
      rw [hv] at ih
      obtain rfl | h := List.mem_cons.mp h
      · exact List.not_mem_cons_of_ne_of_not_mem (Ne.symm hb) (ih List.mem_cons_self)
      · exact ih (List.mem_cons_of_mem v h)

/-! ### The order of the dictionary -/

/-- Of two words at most one is before the other. -/
theorem textBefore_asymm {v w : Text} (h : textBefore v w = true) : textBefore w v = false := by
  induction v generalizing w with
  | nil =>
    cases w with
    | nil => rfl
    | cons b w => rfl
  | cons a v ih =>
    cases w with
    | nil => cases h
    | cons b w =>
      simp only [textBefore, Bool.or_eq_true, Bool.and_eq_true, decide_eq_true_eq] at h
      obtain hlt | ⟨rfl, hrest⟩ := h
      · have hne : b ≠ a := by
          rintro rfl
          exact Nat.lt_irrefl _ hlt
        simp [textBefore, hne, Nat.le_of_lt hlt]
      · simp [textBefore, ih hrest]

theorem textBefore_irrefl (w : Text) : textBefore w w = false := by
  cases h : textBefore w w with
  | false => rfl
  | true => exact h.symm.trans (textBefore_asymm h)

section
variable {dict : Dictionary} (hd : dict.Contract)
include hd

theorem Dictionary.Contract.injective : Function.Injective dict := by
  obtain ⟨-, hrise⟩ := hd
  intro i j hij
  obtain hlt | heq | hgt := Nat.lt_trichotomy i.toNat j.toNat
  · have h := hrise i j hlt
    rw [hij, textBefore_irrefl] at h
    cases h
  · exact BitVec.eq_of_toNat_eq heq
  · have h := hrise j i hgt
    rw [hij, textBefore_irrefl] at h
    cases h

theorem Dictionary.Contract.ne_nil (i : Group) : dict i ≠ [] := by
  obtain ⟨hword, -⟩ := hd
  intro h
  have hi := hword i
  rw [h] at hi
  cases hi

theorem Dictionary.Contract.space_not_mem (i : Group) : space ∉ dict i := by
  obtain ⟨hword, -⟩ := hd
  intro hmem
  have hi := hword i
  rw [isWord, Bool.and_eq_true] at hi
  exact absurd (List.all_eq_true.mp hi.2 space hmem) (by decide)

end

/-! ### The two searches -/

section
variable {dict : Dictionary} {w : Text} {n : Nat}

theorem eq_of_findIndex_eq_some {i : Group} (h : findIndex dict w n = some i) : dict i = w := by
  induction n with
  | zero => cases h
  | succ n ih =>
    simp only [findIndex] at h
    split at h
    · next heq =>
      obtain rfl := Option.some.inj h
      exact heq
    · exact ih h

theorem ne_of_findIndex_eq_none (h : findIndex dict w n = none) {i : Group} (hi : 2048 ≤ i.toNat + n) :
    dict i ≠ w := by
  induction n with
  | zero =>
    have := i.isLt
    omega
  | succ n ih =>
    simp only [findIndex] at h
    split at h
    · cases h
    · next hne =>
      by_cases hfirst : i.toNat = 2047 - n
      · rwa [← hfirst, BitVec.ofNat_toNat, BitVec.setWidth_eq] at hne
      · exact ih h (by omega)

end

section
variable {dict : Dictionary} {w : Text}

theorem lookup_dict (hinj : Function.Injective dict) (i : Group) : lookup dict (dict i) = ⟨false, i⟩ := by
  rw [lookup]
  cases h : findIndex dict (dict i) 2048 with
  | none => exact absurd rfl (ne_of_findIndex_eq_none h (Nat.le_add_left _ _))
  | some j => rw [hinj (eq_of_findIndex_eq_some h), tokenOf]

theorem lookup_of_forall_ne (h : ∀ i, dict i ≠ w) : lookup dict w = ⟨true, 0#11⟩ := by
  rw [lookup]
  cases hf : findIndex dict w 2048 with
  | none => rfl
  | some i => exact absurd (eq_of_findIndex_eq_some hf) (h i)

theorem eq_of_binarySearch_eq_some {n lo : Nat} {i : Group} (h : binarySearch dict w n lo = some i) :
    dict i = w := by
  induction n generalizing lo with
  | zero =>
    rw [binarySearch] at h
    split at h
    · next heq =>
      obtain rfl := Option.some.inj h
      exact heq
    · cases h
  | succ n ih =>
    rw [binarySearch] at h
    split at h
    · exact ih h
    · exact ih h

/-- The entries stand in the order of their indices. -/
theorem Dictionary.Contract.textBefore_iff (hd : dict.Contract) (i j : Group) :
    textBefore (dict i) (dict j) = true ↔ i.toNat < j.toNat := by
  obtain ⟨-, hrise⟩ := hd
  constructor
  · intro h
    by_contra hle
    obtain heq | hlt := Nat.eq_or_lt_of_le (Nat.le_of_not_lt hle)
    · rw [BitVec.eq_of_toNat_eq heq, textBefore_irrefl] at h
      cases h
    · rw [textBefore_asymm (hrise j i hlt)] at h
      cases h
  · exact hrise i j

/-- The search halves the entries in which `dict i` stands. -/
theorem binarySearch_dict (hd : dict.Contract) {n lo : Nat} (hn : lo + 2 ^ n ≤ 2048) {i : Group}
    (hlo : lo ≤ i.toNat) (hhi : i.toNat < lo + 2 ^ n) : binarySearch dict (dict i) n lo = some i := by
  induction n generalizing lo with
  | zero =>
    have hi : lo = i.toNat := by omega
    rw [binarySearch, hi, BitVec.ofNat_toNat, BitVec.setWidth_eq, if_pos rfl]
  | succ n ih =>
    rw [Nat.pow_succ] at hn hhi
    have hpos := Nat.two_pow_pos n
    have hmid : (BitVec.ofNat 11 (lo + 2 ^ n)).toNat = lo + 2 ^ n := by
      rw [BitVec.toNat_ofNat, Nat.mod_eq_of_lt (by omega)]
    have hbefore := hd.textBefore_iff i (BitVec.ofNat 11 (lo + 2 ^ n))
    rw [hmid] at hbefore
    rw [binarySearch]
    split
    · next h => exact ih (by omega) hlo (hbefore.mp h)
    · next h => exact ih (by omega) (Nat.le_of_not_lt (mt hbefore.mpr h)) (by omega)

theorem tokenOf_binarySearch (hd : dict.Contract) (w : Text) : tokenOf (binarySearch dict w 11 0) = lookup dict w := by
  by_cases h : ∃ i, dict i = w
  · obtain ⟨i, rfl⟩ := h
    rw [lookup_dict hd.injective, binarySearch_dict hd (by decide) (Nat.zero_le _) (by simpa using i.isLt), tokenOf]
  · have hne : ∀ i, dict i ≠ w := fun i hi => h ⟨i, hi⟩
    rw [lookup_of_forall_ne hne]
    cases hs : binarySearch dict w 11 0 with
    | none => rfl
    | some i => exact absurd (eq_of_binarySearch_eq_some hs) (hne i)

end

/-- Parsing what FORMAT wrote (R141). -/
theorem parseWords_formatWords {dict : Dictionary} (hd : dict.Contract) {g : List Group} (hg : g ≠ []) :
    parseWords (formatWords dict g) = g.map dict := by
  refine parseWords_joinWords (mt List.map_eq_nil_iff.mp hg) fun w hw => ?_
  obtain ⟨i, -, rfl⟩ := List.mem_map.mp hw
  exact hd.space_not_mem i

end Sys2Proof.Machine

namespace Sys2Proof
open Machine

/-- Settles O53: an entry holds no space, so each is one word of the text. -/
theorem parseInvertsFormat : Obligations.ParseInvertsFormat :=
  fun _ _ hd => parseWords_formatWords hd

/-- Settles O54: by induction on the string, a space starts a word and any other byte goes to the front of one. -/
theorem parseSplitsAtEverySpace : Obligations.ParseSplitsAtEverySpace :=
  fun str => ⟨parseWords_length str, joinWords_parseWords str, fun _ => space_not_mem_of_mem_parseWords⟩

/-- Settles O55: the entries are distinct and none is empty, and their order tells the half that an entry stands in. -/
theorem lookupFindsTheUniqueIndex : Obligations.LookupFindsTheUniqueIndex :=
  fun _ hd => ⟨lookup_dict hd.injective, fun _ h => by rw [lookup_of_forall_ne h],
    by rw [lookup_of_forall_ne hd.ne_nil], tokenOf_binarySearch hd⟩

end Sys2Proof
end

/-! PROOFS. MN.TOTEXT and MN.FROMTEXT (spec/44_codec.md R143): what the host reads back from a response, and the
round trip through the two frames. -/
section
namespace Sys2Proof.Machine

/-! ### Reading a response -/

theorem readIndices_indicesBytes (g : List Group) : readIndices (indicesBytes g) = g := by
  induction g with
  | nil => rfl
  | cons v vs ih =>
    have hfield : (v.setWidth 16).extractLsb' 0 11 = v := by
      apply BitVec.eq_of_toNat_eq
      simpa using v.isLt
    rw [indicesBytes, indexBytes, be16Bytes]
    simp only [List.cons_append, List.nil_append, readIndices, be16_be16Bytes, hfield, ih]

theorem countByte_toNat {n : Nat} (h : n < 256) : (countByte n).toNat = n := by
  rw [countByte, BitVec.toNat_ofNat, Nat.mod_eq_of_lt h]

/-- The host reads the indices that MN.ENCODE answered. -/
theorem indicesOfResponse_payload {g : List Group} (h : g.length < 256) :
    indicesOfResponse (Response.payload (.indices g)) = g := by
  rw [Response.payload, indicesOfResponse, List.headD_cons, countByte_toNat h, List.drop_one, List.tail_cons,
    ← indicesBytes_length, List.take_length, readIndices_indicesBytes]

/-- The host reads the entropy that MN.DECODE answered. -/
theorem entropyOfResponse_payload {g : List Group} {E : List Byte} (hg : g.length < 256) (hE : E.length < 256) :
    entropyOfResponse (Response.payload (.recovered g E)) = E := by
  have hdrop : (countByte g.length :: indicesBytes g ++ countByte E.length :: E).drop (1 + 2 * g.length) =
      countByte E.length :: E := List.drop_left' (by simp; omega)
  rw [Response.payload, entropyOfResponse, List.cons_append, List.headD_cons, countByte_toNat hg, ← List.cons_append,
    hdrop, List.headD_cons, countByte_toNat hE, List.drop_one, List.tail_cons, List.take_length]

/-- The caller of a text operation sees the payload of an OK response. -/
theorem caller_bytes {r : Response} (h : r.status = 0#8) (onOk : List Byte → TextResult) :
    caller onOk r.bytes = onOk r.payload := if_pos h

/-- A frame sent to a block: the host gets the response that the command gives, and the host's queue stays. -/
theorem sendFrame_encode {i : Instr} {s : State} {r : Response} (hi : i.wellFormed = true)
    (h : ∀ s' : State, s'.fault = s.fault → exec i s' = .next (respond r s')) :
    sendFrame (encode i) s = some (respond r s, r.bytes) := by
  have hstep : step { s with inbox := [.frame (encode i)] } = .next (respond r { s with inbox := [] }) :=
    (step_legal rfl (decode_encode hi)).trans (h { s with inbox := [] } rfl)
  rw [sendFrame, hstep]
  simp [respond]

/-! ### The two text operations -/

section
variable {dict : Dictionary} {s : State} (hs : s.fault = none)
include hs

theorem mnToText_ok {E : List Byte} {g : List Group} (h : codecEncode Sha256.h1 E = .ok g) (hE : E.length < 256)
    (hg : g.length < 256) : mnToText dict E s = (respond (.indices g) s, .text (formatWords dict g)) := by
  have hcap : E.length ≤ Config.upCap := by
    show E.length ≤ 2047
    omega
  have hsend := sendFrame_encode (i := .mnEncode E) (s := s) (decide_eq_true hcap)
    fun s' hs' => exec_mnEncode_ok (hs'.trans hs) h
  rw [mnToText, if_pos hcap, hsend]
  dsimp only
  rw [caller_bytes rfl, indicesOfResponse_payload hg]

theorem mnFromText_ok {str : Text} {g : List Group} {E : List Byte}
    (hparse : (parseWords str).map (lookup dict) = hits g) (h : codecDecode .high Sha256.h1 (hits g) = .ok (g, E))
    (hg : g.length < 256) (hE : E.length < 256) :
    mnFromText dict str s = (respond (.recovered g E) s, .words (parseWords str) E) := by
  have hlen := congrArg List.length hparse
  rw [List.length_map, hits_length] at hlen
  have hcap : (parseWords str).length ≤ Config.upCap := by
    show (parseWords str).length ≤ 2047
    omega
  have hcap' : (hits g).length ≤ Config.upCap := by rwa [hits_length, ← hlen]
  have hsend := sendFrame_encode (i := .mnDecode (hits g)) (s := s) (decide_eq_true hcap')
    fun s' hs' => exec_mnDecode_ok (hs'.trans hs) h
  rw [mnFromText, if_pos hcap, hparse, hsend]
  dsimp only
  rw [caller_bytes rfl, entropyOfResponse_payload hg hE]

end

theorem map_lookup_map_dict {dict : Dictionary} (hd : dict.Contract) (g : List Group) :
    (g.map dict).map (lookup dict) = hits g := by
  rw [List.map_map]
  exact List.map_congr_left fun i _ => lookup_dict hd.injective i

end Sys2Proof.Machine

namespace Sys2Proof
open Machine

/-- Settles O56: the words of the text are looked up to the indices that were formatted, and these decode to the
entropy. -/
theorem textRoundTrip : Obligations.TextRoundTrip := by
  intro dict E s hd hs hlegal
  obtain ⟨m, hlo, hhi, hm⟩ := (mem_entLens_iff_exists_eq_four_mul _).mp hlegal
  obtain ⟨g, hg⟩ : ∃ g, g = encodedGroups Sha256.h1 E := ⟨_, rfl⟩
  have hencode := codecEncode_ok_iff.mpr ⟨hlegal, hg⟩
  have hlen : g.length = 3 * m := by rw [hg, encodedGroups_length, hm, fvWords_four_mul]
  have hne : g ≠ [] := List.ne_nil_of_length_pos (by omega)
  have hlookup : (parseWords (formatWords dict g)).map (lookup dict) = hits g := by
    rw [parseWords_formatWords hd hne, map_lookup_map_dict hd]
  have hdecode := codecEncode_ok_iff_codecDecode_hits.mp hencode
  have hfrom := mnFromText_ok (s := respond (.indices g) s) hs hlookup hdecode (by omega) (by omega)
  exact ⟨_, _, _, mnToText_ok hs hencode (by omega) (by omega), hfrom, rfl, rfl, hs⟩

end Sys2Proof
end

/-! PROOFS. Faults (spec/60_exceptions.md R164, R166, R167): a faulted block refuses every command, a fault is entered
with no other change, and where two checks fire at once the earlier one decides. -/
section
namespace Sys2Proof.Machine

/-! ### A faulted block -/

section
variable {s : State} {c : FaultCode} (hs : s.fault = some c)
include hs

theorem command_faulted (op : Except Stop (State × Response)) : command s op = .next (respond (.fault c) s) :=
  unlessFaulted_faulted hs _

/-- Every arm begins with the prologue; only an ill-formed UP.INIT does not reach it. -/
theorem exec_faulted {i : Instr} (hi : i.wellFormed = true) : exec i s = .next (respond (.fault c) s) := by
  cases i with
  | upInit slice =>
    rw [exec, execUpInit, if_pos (of_decide_eq_true hi)]
    exact command_faulted hs _
  | _ => exact command_faulted hs _

theorem illegalCommand_faulted : illegalCommand s = .next (respond (.fault c) s) :=
  unlessFaulted_faulted hs _

end

theorem step_frame_faulted {s : State} {f : List Byte} {rest : List HostEvent} {c : FaultCode} (hs : s.fault = some c)
    (hf : s.inbox = .frame f :: rest) : step s = .next (respond (.fault c) { s with inbox := rest }) := by
  cases hd : decode f with
  | ok i =>
    rw [step_legal hf hd]
    exact exec_faulted (s := { s with inbox := rest }) hs (encode_of_decode hd).1
  | error e =>
    rw [step_illegal hf hd]
    exact illegalCommand_faulted (s := { s with inbox := rest }) hs

/-! ### Entering a fault -/

/-- A completed operation does not write FAULT. -/
theorem effect_fault {i : Instr} {s u : State} {r : Response} (h : Effect i s u r) : u.fault = s.fault := by
  cases i with
  | pkInit | pkWrite11 | pkFinish | pkTake | mnEncode =>
    obtain ⟨_, -, rfl, -⟩ := h
    rfl
  | upInit =>
    obtain ⟨-, rfl, -⟩ := h
    rfl
  | upRead11 | mnDecode =>
    obtain ⟨_, _, -, rfl, -⟩ := h
    rfl

section
variable {s t : State} {c : FaultCode} (hs : s.fault = none) (ht : t.fault = some c)
include hs ht

theorem eq_raiseFault_of_exec {i : Instr} (h : exec i s = .next t) : t = raiseFault c s := by
  obtain ⟨c', hf, -⟩ | ⟨-, ⟨e, rfl⟩ | ⟨c', rfl⟩ | ⟨u, r, hu, rfl⟩⟩ := exec_cases h
  · cases hs.symm.trans hf
  · cases hs.symm.trans ht
  · obtain rfl := Option.some.inj ht
    rfl
  · cases hs.symm.trans ((effect_fault hu).symm.trans ht)

theorem eq_raiseFault_of_illegalCommand (h : illegalCommand s = .next t) : t = raiseFault c s := by
  obtain ⟨c', hf, -⟩ | ⟨-, rfl⟩ := illegalCommand_cases h
  · cases hs.symm.trans hf
  · obtain rfl := Option.some.inj ht
    rfl

end

theorem eq_raiseFault_of_step_frame {s t : State} {f : List Byte} {rest : List HostEvent} {c : FaultCode}
    (hf : s.inbox = .frame f :: rest) (hs : s.fault = none) (h : step s = .next t) (ht : t.fault = some c) :
    t = raiseFault c { s with inbox := rest } := by
  cases hd : decode f with
  | ok i => exact eq_raiseFault_of_exec (s := { s with inbox := rest }) hs ht (step_legal hf hd ▸ h)
  | error e => exact eq_raiseFault_of_illegalCommand (s := { s with inbox := rest }) hs ht (step_illegal hf hd ▸ h)

end Sys2Proof.Machine

namespace Sys2Proof
open Machine

/-- Settles O11: a legal frame and an illegal one both meet the prologue first. -/
theorem faultedBlockRefusesEveryFrame : Obligations.FaultedBlockRefusesEveryFrame :=
  fun _ _ _ _ => step_frame_faulted

/-- Settles O12: only the fault entry sets FAULT. -/
theorem faultEntryIsPrecise : Obligations.FaultEntryIsPrecise :=
  fun _ _ _ _ _ => eq_raiseFault_of_step_frame

/-- Settles O16: both units check the phase first, and the prologue comes before either. -/
theorem checksRunInOrder : Obligations.ChecksRunInOrder := by
  refine ⟨fun s v hs hdone _ => ?_, fun s hs hunbound _ => ?_, fun s i c hi hs => exec_faulted hs hi⟩
  · have hnot : s.pk.phase ≠ .opened := by simp [hdone]
    exact packerCommand_raise hs (packerWrite11_notOpen v hnot)
  · have hnot : s.up.phase ≠ .bound := by simp [hunbound]
    exact exec_upRead11_raise hs (unpackerRead11_notBound hnot)

end Sys2Proof
end

/-! PROOFS. Errors (spec/60_exceptions.md R160, R161, R165): a response that begins with an error status is an error's,
which only an operation of the codec gives, and nothing else changes. -/
section
namespace Sys2Proof.Machine

/-! ### Responses with an error status -/

theorem mnError_status_injective : Function.Injective MnError.status := by
  intro e e'
  cases e <;> cases e' <;> decide

theorem mnError_status_ne_zero (e : MnError) : e.status ≠ 0x00 := by
  cases e <;> decide

theorem faultCode_status_ge (c : FaultCode) : 0x80 ≤ c.status.toNat := by
  cases c <;> decide

/-- The status bytes of the errors are no other response's. -/
theorem status_eq_mnError_status_iff {r : Response} {e : MnError} : r.status = e.status ↔ r = .error e := by
  refine ⟨fun h => ?_, fun h => h ▸ rfl⟩
  cases r with
  | error e' => exact congrArg Response.error (mnError_status_injective h)
  | fault c =>
    have hge := faultCode_status_ge c
    have hlt := mnError_status_lt e
    rw [← h] at hlt
    exact absurd hge (Nat.not_le_of_lt hlt)
  | _ => exact absurd h.symm (mnError_status_ne_zero e)

/-- The state `t` has one response more than `s`, and it begins with the status of `e`. -/
def AnswersError (e : MnError) (s t : State) : Prop :=
  ∃ r : List Byte, t.outbox = s.outbox ++ [r] ∧ r.head? = some e.status

theorem answersError_respond_iff {e : MnError} {s u : State} {r : Response} (hu : u.outbox = s.outbox) :
    AnswersError e s (respond r u) ↔ r = .error e := by
  simp [AnswersError, hu, Response.bytes, status_eq_mnError_status_iff]

/-! ### Which commands answer an error -/

/-- A command that completes with a response other than an error answers an error only when its operation fails
with it. -/
theorem fail_of_command_answersError {α : Type} {s t : State} {e : MnError} {op : Except Stop (State × Response)}
    {x : Except Stop α} {f : α → State × Response} (hop : op = x.map f)
    (hf : ∀ a, (f a).1.outbox = s.outbox ∧ (f a).2 ≠ .error e) (h : command s op = .next t)
    (he : AnswersError e s t) : x = .error (.fail e) ∧ t = respond (.error e) s := by
  subst hop
  obtain ⟨c, -, rfl⟩ | ⟨-, u, r, ho, rfl⟩ | ⟨-, e', ho, rfl⟩ | ⟨-, c, -, rfl⟩ := command_cases h
  · cases (answersError_respond_iff rfl).mp he
  · cases x with
    | error stop => cases ho
    | ok a =>
      obtain ⟨hout, hne⟩ := hf a
      rw [Except.ok.inj ho] at hout hne
      exact absurd ((answersError_respond_iff hout).mp he) hne
  · cases (answersError_respond_iff rfl).mp he
    cases x with
    | error stop => exact ⟨congrArg Except.error (Except.error.inj ho), rfl⟩
    | ok a => cases ho
  · cases (answersError_respond_iff (s := s) (u := { s with fault := some c }) rfl).mp he

theorem packerCommand_not_answersError {s t : State} {e : MnError} {x : Except Stop Packer}
    (hx : x ≠ .error (.fail e)) (h : packerCommand s x = .next t) : ¬ AnswersError e s t := fun he =>
  hx (fail_of_command_answersError (x := x) (f := fun p => ({ s with pk := p }, .done)) (by cases x <;> rfl)
    (fun _ => ⟨rfl, nofun⟩) h he).1

theorem packerTake_ne_fail (p : Packer) (e : MnError) : packerTake p ≠ .error (.fail e) := by
  unfold packerTake
  split
  · split <;> simp
  · simp

theorem unpackerRead11_ne_fail (u : Unpacker) (e : MnError) : unpackerRead11 u ≠ .error (.fail e) := by
  unfold unpackerRead11
  split
  · split <;> simp
  · simp

/-- The operation of `i` is a conversion of the codec that fails with `e`. -/
def CodecFails (e : MnError) (i : Instr) : Prop :=
  (∃ E, i = .mnEncode E ∧ codecEncode Sha256.h1 E = .error (.fail e)) ∨
    ∃ ts, i = .mnDecode ts ∧ codecDecode Config.pkFinalAlign Sha256.h1 ts = .error (.fail e)

theorem codecFails_of_exec_answersError {i : Instr} {s t : State} {e : MnError} (h : exec i s = .next t)
    (he : AnswersError e s t) : CodecFails e i ∧ t = respond (.error e) s := by
  cases i with
  | pkInit wc => exact absurd he (packerCommand_not_answersError (packerInit_ne_fail wc s.pk e) h)
  | pkWrite11 v => exact absurd he (packerCommand_not_answersError (packerWrite11_ne_fail v s.pk e) h)
  | pkFinish => exact absurd he (packerCommand_not_answersError (packerFinish_ne_fail _ s.pk e) h)
  | pkTake =>
    obtain ⟨hx, -⟩ := fail_of_command_answersError (x := packerTake s.pk) (f := fun bytes => (s, .taken bytes))
      (by cases packerTake s.pk <;> rfl) (fun _ => ⟨rfl, nofun⟩) h he
    exact absurd hx (packerTake_ne_fail s.pk e)
  | upInit slice =>
    rw [exec, execUpInit] at h
    split at h
    · obtain ⟨hx, -⟩ := fail_of_command_answersError (s := s) (x := .ok ())
        (f := fun _ => ({ s with up := unpackerInit slice s.up }, .done)) rfl (fun _ => ⟨rfl, nofun⟩) h he
      cases hx
    · cases h
  | upRead11 =>
    obtain ⟨hx, -⟩ := fail_of_command_answersError (x := unpackerRead11 s.up)
      (f := fun y => ({ s with up := y.2 }, .value y.1)) (by cases unpackerRead11 s.up <;> rfl)
      (fun _ => ⟨rfl, nofun⟩) h he
    exact absurd hx (unpackerRead11_ne_fail s.up e)
  | mnEncode E =>
    obtain ⟨hx, ht⟩ := fail_of_command_answersError (x := codecEncode Sha256.h1 E) (f := fun g => (s, .indices g))
      (by cases codecEncode Sha256.h1 E <;> rfl) (fun _ => ⟨rfl, nofun⟩) h he
    exact ⟨.inl ⟨E, rfl, hx⟩, ht⟩
  | mnDecode ts =>
    obtain ⟨hx, ht⟩ := fail_of_command_answersError (x := codecDecode Config.pkFinalAlign Sha256.h1 ts)
      (f := fun y => (s, .recovered y.1 y.2)) (by cases codecDecode Config.pkFinalAlign Sha256.h1 ts <;> rfl)
      (fun _ => ⟨rfl, nofun⟩) h he
    exact ⟨.inr ⟨ts, rfl, hx⟩, ht⟩

theorem illegalCommand_not_answersError {s t : State} {e : MnError} (h : illegalCommand s = .next t) :
    ¬ AnswersError e s t := by
  intro he
  obtain ⟨c, -, rfl⟩ | ⟨-, rfl⟩ := illegalCommand_cases h
  · cases (answersError_respond_iff rfl).mp he
  · cases (answersError_respond_iff (s := s) (u := { s with fault := some .badCommand }) rfl).mp he

theorem eq_respond_error_of_step_frame {s t : State} {f : List Byte} {rest : List HostEvent} {e : MnError}
    (hf : s.inbox = .frame f :: rest) (h : step s = .next t) (he : AnswersError e { s with inbox := rest } t) :
    t = respond (.error e) { s with inbox := rest } := by
  cases hd : decode f with
  | ok i => exact (codecFails_of_exec_answersError (step_legal hf hd ▸ h) he).2
  | error e' => exact absurd he (illegalCommand_not_answersError (step_illegal hf hd ▸ h))

/-! ### Which errors the codec gives -/

theorem codecEncode_fail {h1 : List Byte → Byte} {E : List Byte} {e : MnError}
    (h : codecEncode h1 E = .error (.fail e)) : e = .invalidEntropyLength := by
  by_cases hE : E.length ∈ Config.entLens
  · cases (codecEncode_ok_iff.mpr ⟨hE, rfl⟩).symm.trans h
  · cases (codecEncode_eq_fail hE).symm.trans h
    rfl

theorem codecDecode_fail {h1 : List Byte → Byte} {ts : List Token} {e : MnError}
    (h : codecDecode .high h1 ts = .error (.fail e)) :
    e = .invalidWordCount ∨ e = .unknownWord ∨ e = .checksumMismatch := by
  by_cases hcount : ts.length ∈ Config.wordCounts
  · by_cases hmiss : ∃ t, t ∈ ts ∧ t.miss = true
    · cases (codecDecode_unknownWord hcount hmiss).symm.trans h
      exact .inr (.inl rfl)
    · rw [codecDecode_hits hcount fun t ht => eq_false_of_ne_true fun hm => hmiss ⟨t, ht, hm⟩] at h
      split at h
      · cases h
      · cases h
        exact .inr (.inr rfl)
  · cases (codecDecode_wrongCount hcount).symm.trans h
    exact .inl rfl

end Sys2Proof.Machine

namespace Sys2Proof
open Machine

/-- Settles O13: an error status is answered only where an operation fails, and a failed operation leaves the state. -/
theorem errorEntryChangesNothing : Obligations.ErrorEntryChangesNothing :=
  fun _ _ _ _ r _ hf h hout hr => eq_respond_error_of_step_frame hf h ⟨r, hout, hr⟩

/-- Settles O14: only the two conversions of the codec fail, each by its own checks. -/
theorem errorsComeFromTheCodecOnly : Obligations.ErrorsComeFromTheCodecOnly := by
  intro s t i r e h hout hr
  obtain ⟨⟨E, hi, hfail⟩ | ⟨ts, hi, hfail⟩, -⟩ := codecFails_of_exec_answersError h ⟨r, hout, hr⟩
  · exact .inl ⟨E, hi, codecEncode_fail hfail⟩
  · exact .inr ⟨ts, hi, codecDecode_fail hfail⟩

end Sys2Proof
end

/-! PROOFS. Reset (spec/70_reset_and_hazards.md R190, R191; spec/60_exceptions.md R169): RST is the only return from a
fault, and what the first command after it does. -/
section
namespace Sys2Proof.Machine

/-- Both forms of RST are handled alike: the command in progress leaves no trace. -/
theorem step_rst {s : State} {ev : HostEvent} {rest : List HostEvent} (hin : s.inbox = ev :: rest)
    (hev : ev = .rst ∨ ∃ f, ev = .rstDuring f) : step s = .next (rst { s with inbox := rest }) := by
  obtain rfl | ⟨f, rfl⟩ := hev <;> simp only [step, takeEvent, hin]

/-- FAULT is sticky under every frame, legal or not (R167). -/
theorem fault_of_step_frame_faulted {s t : State} {f : List Byte} {rest : List HostEvent} {c : FaultCode}
    (hs : s.fault = some c) (hin : s.inbox = .frame f :: rest) (h : step s = .next t) : t.fault = some c := by
  obtain rfl := Host.Outcome.next.inj ((step_frame_faulted hs hin).symm.trans h)
  exact hs

/-- A step that changes a nonzero FAULT took RST: an idle step keeps the state, and a frame keeps FAULT. -/
theorem exists_rst_of_step_changes_fault {s t : State} {c : FaultCode} (hs : s.fault = some c) (h : step s = .next t)
    (ht : t.fault ≠ some c) : ∃ ev rest, s.inbox = ev :: rest ∧ (ev = .rst ∨ ∃ f, ev = .rstDuring f) := by
  obtain ⟨-, rfl⟩ | ⟨ev, rest, hin, hev, -⟩ | ⟨f, rest, i, hin, -⟩ | ⟨f, rest, e, hin, -⟩ := step_cases h
  · exact absurd hs ht
  · exact ⟨ev, rest, hin, hev⟩
  · exact absurd (fault_of_step_frame_faulted hs hin h) ht
  · exact absurd (fault_of_step_frame_faulted hs hin h) ht

end Sys2Proof.Machine

namespace Sys2Proof
open Machine

/-- Settles O9: RST leaves `rst` of the state, and no other step leaves a faulted block with another FAULT. -/
theorem onlyResetSignalClearsFault : Obligations.OnlyResetSignalClearsFault :=
  ⟨fun _ _ _ hin hev => ⟨_, step_rst hin hev, rfl, rfl, rfl, rfl, rfl, rfl, rfl, rfl, rfl, rfl, rfl, rfl⟩,
    fun _ _ _ => exists_rst_of_step_changes_fault⟩

/-- Settles O10: after reset the packer is IDLE and the unpacker UNBOUND, so all but their constructions fail the phase
check; the codec reads neither unit. -/
theorem firstCommandsAfterReset : Obligations.FirstCommandsAfterReset := by
  have hready : State.reset.fault = none := rfl
  have hnotOpen : State.reset.pk.phase ≠ .opened := by decide
  have hnotDone : State.reset.pk.phase ≠ .done := by decide
  have hunbound : State.reset.up.phase ≠ .bound := by decide
  obtain ⟨hencode, hdecode⟩ := codecCommandsArePureAndNeverFault
  refine ⟨fun v => packerCommand_raise hready (packerWrite11_notOpen v hnotOpen),
    packerCommand_raise hready (packerFinish_notOpen Config.pkFinalAlign hnotOpen),
    exec_pkTake_raise hready (packerTake_notDone hnotDone),
    exec_upRead11_raise hready (unpackerRead11_notBound hunbound),
    fun wc hwc => ⟨_, packerCommand_ok hready (packerInit_ok_iff.mpr ⟨hwc, rfl⟩), rfl⟩,
    fun slice hslice => ⟨_, exec_upInit_ok hready hslice, rfl⟩, fun entropy => ?_, fun tokens => ?_⟩
  · obtain ⟨st, payload, -, hexec⟩ := hencode entropy
    exact ⟨_, hexec State.reset hready, rfl⟩
  · obtain ⟨st, payload, -, hexec⟩ := hdecode tokens
    exact ⟨_, hexec State.reset hready, rfl⟩

end Sys2Proof
end

/-! PROOFS. The alignment of the last byte (spec/90_conflicts.md C1, spec/93_implementation_defined.md U1) moves the
packed residue within that byte and nothing else, so the checksum check sees the same bits under both readings. -/
section
namespace Sys2Proof.Machine

/-! ### Finishing under either alignment -/

/-- PK.FINISH and PK.TAKE on `p` complete and answer the bytes `A`. -/
def FinishesWith (align : Config.FinalAlign) (p : Packer) (A : List Byte) : Prop :=
  ∃ q, packerFinish align p = .ok q ∧ packerTake q = .ok A

/-- The packer that packing an accepted list fills is finished and read under either alignment. -/
theorem exists_holdsValues_of_packIndices {vs : List Group} {A : List Byte} (h : packIndices .high vs = .ok A) :
    ∃ p, HoldsValues vs p ∧ ∀ {align B}, FinishesWith align p B → packIndices align vs = .ok B := by
  unfold packIndices at h
  split at h
  · cases h
  · next p₀ hinit =>
    split at h
    · cases h
    · next p hpack =>
      refine ⟨p, holdsValues_packAll (holdsValues_packerInit hinit) hpack, ?_⟩
      rintro align B ⟨q, hfinish, htake⟩
      simp only [packIndices, hinit, hpack, hfinish, htake]

theorem result_pushed (p : Packer) (b : Byte) (hroom : p.len.toNat < Config.pkBufBytes) :
    (p.pushed b).result = p.result ++ [b] := by
  have hbefore : (List.range p.len.toNat).map (p.pushed b).byteAt = p.result := by
    refine List.map_congr_left fun k hk => ?_
    rw [byteAt_pushed, if_neg (Nat.ne_of_gt (List.mem_range.mp hk))]
  have hlast : (p.pushed b).byteAt p.len.toNat = b := by rw [byteAt_pushed, if_pos rfl]
  rw [Packer.result, pushed_len p b hroom, List.range_succ, List.map_append, hbefore, List.map_singleton, hlast]

section
variable {vs : List Group} {p : Packer} (h : HoldsValues vs p) (align : Config.FinalAlign)
include h

/-- R96: an open packer has room for one byte more. -/
theorem HoldsValues.len_lt : p.len.toNat < Config.pkBufBytes := by
  have hlen := h.len
  have hcount := h.count_le
  have hwc : p.wc.toNat ≤ 24 := h.wc_le
  have hsize : Config.pkBufBytes = 34 := rfl
  omega

/-- Without a residue the result is the bytes stored so far. -/
theorem HoldsValues.finishesWith_of_no_residue (hnone : p.nacc.toNat = 0) : FinishesWith align p p.result :=
  ⟨_, packerFinish_ok_iff.mpr ⟨h.phase, .inl ⟨hnone, rfl⟩⟩, packerTake_ok_iff.mpr ⟨rfl, h.len_lt.le, rfl⟩⟩

/-- With a residue the result ends with its byte. -/
theorem HoldsValues.finishesWith_of_residue (hsome : 0 < p.nacc.toNat) :
    FinishesWith align p (p.result ++ [finalByte align p]) := by
  have hlen := pushed_len p (finalByte align p) h.len_lt
  exact ⟨_, packerFinish_ok_iff.mpr ⟨h.phase, .inr ⟨hsome, h.len_lt, rfl⟩⟩,
    packerTake_ok_iff.mpr ⟨rfl, hlen.trans_le h.len_lt, (result_pushed p _ h.len_lt).symm⟩⟩

/-- R17: the residue's number fits its bits. -/
theorem HoldsValues.acc_lt : p.acc.toNat < 2 ^ p.nacc.toNat := by
  have hlen := h.len
  have hnacc := h.nacc
  have hlt := numberOf_lt ((streamOf vs).drop (8 * p.len.toNat))
  have hrest : 11 * vs.length - 8 * p.len.toNat = p.nacc.toNat := by omega
  rwa [← h.acc, List.length_drop, streamOf_length, hrest] at hlt

/-- Under either alignment the embedded bits of the residue's byte are the residue. -/
theorem HoldsValues.embeddedBits_finalByte :
    embeddedBits align (finalByte align p) p.nacc.toNat = p.acc.toNat := by
  have hacc := h.acc_lt
  have hnacc : p.nacc.toNat ≤ 8 := Nat.le_of_lt p.nacc.isLt
  have hbyte : 2 ^ p.nacc.toNat * 2 ^ (8 - p.nacc.toNat) = 2 ^ 8 := by
    rw [← Nat.pow_add, Nat.add_sub_cancel' hnacc]
  cases align with
  | low =>
    have hfits : p.acc.toNat < 2 ^ 8 := hacc.trans_le (Nat.pow_le_pow_right Nat.two_pos hnacc)
    rw [embeddedBits, finalByte, BitVec.toNat_ofNat, Nat.mod_eq_of_lt hfits, Nat.mod_eq_of_lt hacc]
  | high =>
    have hfits : p.acc.toNat * 2 ^ (8 - p.nacc.toNat) < 2 ^ 8 :=
      hbyte ▸ Nat.mul_lt_mul_of_pos_right hacc (Nat.two_pow_pos _)
    rw [embeddedBits_high, finalByte_high, BitVec.toNat_ofNat, Nat.mod_eq_of_lt hfits,
      Nat.mul_div_cancel _ (Nat.two_pow_pos _)]

end

/-! ### The checksum of the two frames -/

/-- A checksum that fills its byte is read alike under both alignments. -/
theorem embeddedBits_eight (align : Config.FinalAlign) (b : Byte) : embeddedBits align b 8 = b.toNat := by
  cases align with
  | low => exact Nat.mod_eq_of_lt b.isLt
  | high => rfl

/-- A legal count of indices packs to the same entropy and embedded bits under both alignments. -/
theorem exists_frames_of_alignments {vs : List Group} {m : Nat} (hlo : 4 ≤ m) (hhi : m ≤ 8)
    (hcount : vs.length = 3 * m) :
    ∃ E b b', packIndices .low vs = .ok (E ++ [b]) ∧ packIndices .high vs = .ok (E ++ [b']) ∧
      embeddedBits .low b m = embeddedBits .high b' m := by
  obtain ⟨E, b, hhigh, -, -⟩ := exists_frame_of_indices hlo hhi hcount
  obtain ⟨p, hp, hpack⟩ := exists_holdsValues_of_packIndices hhigh
  have hnacc := hp.nacc
  obtain rfl | hlt := Nat.eq_or_lt_of_le hhi
  · have hnone : p.nacc.toNat = 0 := by omega
    have hsame : packIndices .low vs = packIndices .high vs := by
      rw [hpack (hp.finishesWith_of_no_residue .low hnone), hpack (hp.finishesWith_of_no_residue .high hnone)]
    exact ⟨E, b, b, hsame.trans hhigh, hhigh, by rw [embeddedBits_eight, embeddedBits_eight]⟩
  · obtain rfl : p.nacc.toNat = m := by omega
    have hsome : 0 < p.nacc.toNat := by omega
    exact ⟨p.result, _, _, hpack (hp.finishesWith_of_residue .low hsome),
      hpack (hp.finishesWith_of_residue .high hsome),
      by rw [hp.embeddedBits_finalByte, hp.embeddedBits_finalByte]⟩

/-- The checksum check reads the last byte through its embedded bits alone. -/
theorem fvCsum_congr {align align' : Config.FinalAlign} (h1 : List Byte → Byte) (E : List Byte) {b b' : Byte} {n : Nat}
    (h : embeddedBits align b (fvCsbits n) = embeddedBits align' b' (fvCsbits n)) :
    fvCsum align h1 (E ++ [b]) n = fvCsum align' h1 (E ++ [b']) n := by
  rw [fvCsum, fvCsum, fvSplit_append_singleton, fvSplit_append_singleton]
  dsimp only
  rw [h]

end Sys2Proof.Machine

namespace Sys2Proof
open Machine

/-- Settles O42: the count and the lookup do not see the alignment, and the two packed frames hold the same entropy and
the same embedded bits. -/
theorem verdictIsTheSameUnderBothAlignments : Obligations.VerdictIsTheSameUnderBothAlignments := by
  intro h1 tokens
  by_cases hcount : tokens.length ∈ Config.wordCounts
  · obtain ⟨m, hlo, hhi, hm⟩ := (mem_wordCounts_iff_exists_eq_three_mul _).mp hcount
    obtain ⟨E, b, b', hlow, hhigh, hbits⟩ :=
      exists_frames_of_alignments (vs := tokens.map Token.idx) hlo hhi ((List.length_map _).trans hm)
    have hcsum : fvCsum .low h1 (E ++ [b]) tokens.length = fvCsum .high h1 (E ++ [b']) tokens.length :=
      fvCsum_congr h1 E (by rwa [hm, fvCsbits_three_mul])
    simp only [codecDecode, hlow, hhigh, hcsum, fvSplit_append_singleton]
  · simp only [codecDecode, fvWcnt_eq_fail hcount]

end Sys2Proof
end

/-! PROOFS. The source's two known vectors (spec/95_test_vectors.md V1, V2), with SHA-256 as the hash, as indices and as
text. -/
section
namespace Sys2Proof.Machine

theorem codecEncode_zeros :
    codecEncode Sha256.h1 (List.replicate 16 0x00) = .ok (List.replicate 11 0 ++ [3]) := by decide +kernel

theorem codecEncode_ones :
    codecEncode Sha256.h1 (List.replicate 16 0xFF) = .ok (List.replicate 11 2047 ++ [2037]) := by decide +kernel

theorem formatWords_replicate_append_singleton (dict : Dictionary) (n : Nat) (v w : Group) :
    formatWords dict (List.replicate n v ++ [w]) = joinWords (List.replicate n (dict v) ++ [dict w]) := by
  rw [formatWords, List.map_append, List.map_replicate, List.map_singleton]

end Sys2Proof.Machine

namespace Sys2Proof
open Machine

/-- Settles O51: the two encodings are computed, and the text is the pinned entries of their indices. -/
theorem knownVectorsComeOut : Obligations.KnownVectorsComeOut := by
  refine ⟨exec_mnEncode_ok rfl codecEncode_zeros, exec_mnEncode_ok rfl codecEncode_ones, fun dict hdict => ?_⟩
  obtain ⟨habandon : dict 0 = _, habout : dict 3 = _, hwrong : dict 2037 = _, hzoo : dict 2047 = _⟩ := hdict
  constructor
  · rw [mnToText_ok rfl codecEncode_zeros (by decide) (by decide), formatWords_replicate_append_singleton,
      habandon, habout]
  · rw [mnToText_ok rfl codecEncode_ones (by decide) (by decide), formatWords_replicate_append_singleton,
      hzoo, hwrong]

end Sys2Proof
end
